-- ==== Sys2Proof/Word.lean ====
section
/-! DEFINITION. The widths of `00_scope.md` R6: the 15-bit Word of registers and stack entries, the 16-bit
field of the instruction stream and of a memory cell, the byte of the host channel. Everything is unsigned (R8). -/

namespace Sys2Proof

/-- A Word, 0 to 32767 (R6, R21). -/
abbrev Word := BitVec 15

/-- A raw 16-bit word of the instruction stream, which is also the contents of a memory cell (R6, R50). -/
abbrev Field := BitVec 16

/-- A byte of the image or of the host channel (R53, R180, R181). -/
abbrev Byte := BitVec 8

/-- The number of a general register, r0 to r7 (R21). -/
abbrev RegIdx := Fin 8

end Sys2Proof
end

