-- ==== Sys2Proof/Config.lean ====
section
/-! DEFINITION. The fixed parameters of `00_scope.md` R6 and the one free value of the model. -/

namespace Sys2Proof.Config

/-- The number of cells of the Address Space (R6, R50). -/
@[simp] abbrev addressCells : Nat := 32768

/-- The number of entries the call stack can hold (R6, R28). -/
@[simp] abbrev stackCapacity : Nat := 32768

/-- The highest `pc` from which all four slots lie in the Address Space (R81). -/
@[simp] abbrev lastFetchPc : Nat := 32764

/-- What an entry of the call stack that nothing has written holds: any value (`93_implementation_defined.md` U10,
`10_state.md` R38). DESIGN CHOICE (log entry 2): a free value, safe, since nothing constrains it. -/
opaque unwrittenStackEntry : Nat → Word

end Sys2Proof.Config
end

