-- ==== Sys2Proof/Machine/State.lean ====
section
/-! DEFINITION. Everything the spec gives the machine (`10_state.md` R20): the CORE state, the Address Space, the
positions in the host streams and the reset input, as plain data; the reasons a step can stop; the state after reset. -/

namespace Sys2Proof.Machine

/-- The run's status (R32). The reserved code 3 is never produced (U13) and has no constructor (log entry 10). -/
inductive Status where
  | running
  | halted
  | faulted
  deriving DecidableEq, Repr

/-- The causes of `60_exceptions.md` R191; `none` while the run has not faulted (R33). The reserved codes are never
produced (U13) and have no constructor (log entry 10). -/
inductive Cause where
  | none
  | unknownOpcode
  | invalidOperand
  | invalidRegisterTarget
  | stackUnderflow
  | stackOverflow
  | programCounterOutOfBounds
  | fetchOutOfRange
  | divideByZero
  | invalidMemoryValue
  | inputExhausted
  deriving DecidableEq, Repr

/-- The Address Space as the bytes of its cells: cell `k` is the bytes under keys `2k` (bits 7..0) and `2k + 1`
(bits 15..8), the image's own layout (`20_memory.md` R53; log entry 6). Keys rise strictly, and a byte that is 0 is
not listed, 0 being what every cell holds that nothing has filled (R65). -/
abbrev Memory := List Host.Cell

/-- The storage of the call stack: the entries written so far, by index, indexes rising strictly (R28). -/
abbrev StackStore := List (Nat × Word)

/-- The machine (R20). -/
structure State where
  /-- `x[0..7]` (R21). -/
  regs : Vector Word 8
  /-- The program counter, 0 to 32768 (R24). -/
  pc : BitVec 16
  /-- `stk[0..32767]` (R28). -/
  stk : StackStore
  /-- The number of live stack entries, 0 to 32768 (R29). -/
  sp : BitVec 16
  /-- The program length register (R31). -/
  L : BitVec 16
  /-- RUNNING, HALTED or FAULTED (R32). -/
  status : Status
  /-- The cause of the fault taken (R33). -/
  cause : Cause
  /-- `fault_pc`, the address of the faulting instruction (R34). -/
  faultPc : BitVec 16
  /-- `fault_op`, the opcode word of the faulting step (R35). -/
  faultOp : BitVec 16
  /-- The Address Space (R50), outside the CORE and part of the machine state (R20). -/
  mem : Memory
  /-- The host input stream as far as the host has offered it (R181). -/
  input : List Byte
  /-- The position reached in the input stream: how many of its bytes were taken (R20, R37). -/
  inputPos : Nat
  /-- The host reports `EOF` after the offered bytes (R181); if false, the rest is still to come. -/
  inputEnded : Bool
  /-- The bytes the output sink accepted, oldest first (R180); the length is the position reached (R20). -/
  output : List Byte
  /-- The output sink accepts a byte now (R180, R184). -/
  sinkReady : Bool
  /-- The level of the reset input (`70_reset_and_hazards.md` R220). -/
  resetAsserted : Bool
  deriving DecidableEq, Repr

/-- Why no step is taken. A fault of an instruction is none of these: its entry is a next state (R203). Log entries 4
and 5. -/
inductive Fault where
  /-- Raised by `step` alone, in HALTED: no step happens until the next reset (R32, R205). Safe: the machine stops too. -/
  | coreHalted
  /-- Raised by `step` alone, in FAULTED: no step happens until the next reset (R32, R205). Safe: the machine stops too. -/
  | coreFaulted
  /-- Raised by `step` alone, while reset is asserted: the CORE takes no step (R220). Safe: the machine stops too. -/
  | coreInReset
  /-- Raised by the meanings of out and in, through `complete`, where the host has not completed the transaction: the
  CORE has no step until it does (R180, R181, R213; U9: `stuck`). Nothing has changed, and once the host acts the same
  instruction runs. Safe: the machine waits too. -/
  | waitingForHost
  deriving DecidableEq, Repr

/-- Why an instruction has no meaning. -/
inductive Refusal where
  /-- Would be raised by an arm of `exec` that has no meaning yet; no arm is left that raises it. Safe. -/
  | notModelled (mnemonic : String)
  deriving DecidableEq, Repr

/-- The machine right after reset with no program loaded (R38, R221): memory zero, and, chosen by the model, the
empty image's `L = 0` (DESIGN CHOICE, log entry 1), an empty input stream whose end the host reports and an accepting
sink (DESIGN CHOICE, log entry 3). -/
def State.reset : State where
  regs := Vector.replicate 8 0
  pc := 0
  stk := []
  sp := 0
  L := 0
  status := .running
  cause := .none
  faultPc := 0
  faultOp := 0
  mem := []
  input := []
  inputPos := 0
  inputEnded := true
  output := []
  sinkReady := true
  resetAsserted := false

end Sys2Proof.Machine
end

