-- ==== Sys2Proof/Machine/Ops.lean ====
section
/-! DEFINITION. The shared operations over State: sparse storage, the memory port (`20_memory.md` R51), the register
file, the program counter, the call stack (`10_state.md` R30), the host channel (`46_host_io.md` R180, R181), fault
entry (`60_exceptions.md` R203), the bound check (R26), and how a step ends (`30_encoding.md` R84, R85). -/

namespace Sys2Proof.Machine

/-! ### Sparse storage, shared by the memory and the stack -/

/-- The value stored under key `k`, if one is listed. -/
def Store.find {α : Type} (k : Nat) : List (Nat × α) → Option α
  | [] => none
  | (j, v) :: rest => if j = k then some v else Store.find k rest

/-- Store `v` under `k`, keeping the keys in rising order. -/
def Store.put {α : Type} (k : Nat) (v : α) : List (Nat × α) → List (Nat × α)
  | [] => [(k, v)]
  | (j, w) :: rest =>
    if k < j then (k, v) :: (j, w) :: rest
    else if j = k then (k, v) :: rest
    else (j, w) :: Store.put k v rest

/-- Remove the entry under `k`. -/
def Store.drop {α : Type} (k : Nat) : List (Nat × α) → List (Nat × α)
  | [] => []
  | (j, w) :: rest => if j = k then Store.drop k rest else (j, w) :: Store.drop k rest

/-- The keys rise strictly. -/
def Store.sorted {α : Type} : List (Nat × α) → Bool
  | [] => true
  | (j, _) :: rest => rest.all (fun e => decide (j < e.1)) && Store.sorted rest

/-! ### The Address Space -/

/-- What a byte of the Address Space that nothing has filled reads as: 0 (R65; log entry 7). -/
def Memory.unlistedByte : Byte := 0

/-- The byte under key `k`. -/
def Memory.readByte (m : Memory) (k : Nat) : Byte := (Store.find k m).getD Memory.unlistedByte

/-- Store a byte; the value an unlisted key reads as is stored by listing nothing. -/
def Memory.writeByte (m : Memory) (k : Nat) (b : Byte) : Memory :=
  if b = Memory.unlistedByte then Store.drop k m else Store.put k b m

/-- The contents of cell `k`: its low byte under `2k`, its high byte under `2k + 1` (R53). -/
def Memory.readCell (m : Memory) (k : Nat) : Field := m.readByte (2 * k + 1) ++ m.readByte (2 * k)

/-- Store a 16-bit value in cell `k` (R53). -/
def Memory.writeCell (m : Memory) (k : Nat) (v : Field) : Memory :=
  (m.writeByte (2 * k) (v.extractLsb' 0 8)).writeByte (2 * k + 1) (v.extractLsb' 8 8)

/-- The canonical form: keys rise strictly, lie inside the 32768 cells, and list no byte an unlisted key reads as. -/
def Memory.wf (m : Memory) : Bool :=
  Store.sorted m && m.all (fun e => decide (e.1 < 2 * Config.addressCells) && e.2 != Memory.unlistedByte)

/-- `MemRead(addr, 1)` (R51): every 15-bit address is valid and a read has no effect (R55). -/
def State.memRead (s : State) (addr : Word) : Field := s.mem.readCell addr.toNat

/-- `MemWrite(addr, 1, v)` (R51). -/
def State.memWrite (s : State) (addr : Word) (v : Field) : State :=
  { s with mem := s.mem.writeCell addr.toNat v }

/-! ### Registers and program counter -/

/-- `x[i]` (R21): no register is hardwired. -/
def State.readReg (s : State) (i : RegIdx) : Word := s.regs[i]

/-- `x[i] <- v` (R21). -/
def State.writeReg (s : State) (i : RegIdx) (v : Word) : State := { s with regs := s.regs.set i v }

/-- `pc <- target` (R24): a 15-bit target is used as it is (R135). -/
def State.jump (s : State) (target : Word) : State := { s with pc := target.setWidth 16 }

/-- `pc <- pc + n`, the sequential update of R25. After stage 1 `pc` is at most 32764 (R81), so it never wraps. -/
def State.advance (s : State) (n : Nat) : State := { s with pc := s.pc + BitVec.ofNat 16 n }

/-! ### The call stack -/

/-- The entry `stk[k]`; one that nothing has written holds any value (U10; log entry 2). -/
def StackStore.read (stk : StackStore) (k : Nat) : Word := (Store.find k stk).getD (Config.unwrittenStackEntry k)

/-- The canonical form of the stack's storage: indexes rise strictly and lie inside the 32768 entries (R28). -/
def StackStore.wf (stk : StackStore) : Bool :=
  Store.sorted stk && stk.all (fun e => decide (e.1 < Config.stackCapacity))

/-- `stk[sp] <- v; sp <- sp + 1` (R30). -/
def State.pushEntry (s : State) (v : Word) : State :=
  { s with stk := Store.put s.sp.toNat v s.stk, sp := s.sp + 1 }

/-- `sp <- sp - 1` (R30). The entry stays in the storage, above the live ones. -/
def State.popEntry (s : State) : State := { s with sp := s.sp - 1 }

/-- The entry on top of a stack that is not empty: `stk[sp - 1]` (R30). -/
def State.top (s : State) : Word := StackStore.read s.stk (s.sp - 1).toNat

/-- `Push(v)` (R30, R195): StackOverflow on a full stack. -/
def State.push (s : State) (v : Word) : Except Cause State :=
  if s.sp.toNat = Config.stackCapacity then .error .stackOverflow else .ok (s.pushEntry v)

/-- `Pop()` (R30, R195): StackUnderflow on an empty stack; else the top entry and the state without it. -/
def State.pop (s : State) : Except Cause (Word × State) :=
  if s.sp.toNat = 0 then .error .stackUnderflow else .ok (s.top, s.popEntry)

/-! ### The host channel -/

/-- What `InByte()` finds at the input port (R181). -/
inductive HostReply where
  | byte (b : Byte)
  | eof
  | notYet
  deriving DecidableEq, Repr

/-- `InByte()` (R181): the next byte of the stream, or `EOF` once the stream has ended, or neither yet. -/
def State.inByte (s : State) : HostReply :=
  match s.input[s.inputPos]? with
  | some b => .byte b
  | none => if s.inputEnded then .eof else .notYet

/-- The byte at the position reached is delivered, once (R181). -/
def State.takeByte (s : State) : State := { s with inputPos := s.inputPos + 1 }

/-- `OutByte(b)`, accepted by the sink (R180). -/
def State.emitByte (s : State) (b : Byte) : State := { s with output := s.output ++ [b] }

/-! ### HALTED, fault entry, and how a step ends -/

/-- `halt_core()` (R32, R100). -/
def State.haltCore (s : State) : State := { s with status := .halted }

/-- Fault entry (R203): cause `k`, in the step that began at `p` and fetched the opcode word `op`. The four writes
are all there is: nothing is saved elsewhere, no vector is taken, `pc` stays. There is no return from it (R204):
only reset leaves FAULTED (R220). -/
def State.enterFault (s : State) (k : Cause) (p : BitVec 16) (op : Field) : State :=
  { s with status := .faulted, cause := k, faultPc := p, faultOp := op }

/-- The bound check of R26 on the state `t` a step that began at `p` has committed. -/
def State.boundCheck (t : State) (p : BitVec 16) (op : Field) : State :=
  if t.L.toNat < t.pc.toNat then t.enterFault .programCounterOutOfBounds p op else t

/-- What stages 3 and 4 of a step come to (R83, R84). -/
inductive Effect where
  /-- The instruction's writes and the new `pc`, ready to retire. -/
  | commit (t : State)
  /-- A fault of stage 3 or 4: nothing was written (R202). -/
  | raise (k : Cause)
  /-- The host has not completed the transaction: nothing has changed (R213). -/
  | wait

/-- Go on with the value, or raise the fault that came instead of it. -/
def resolve {α : Type} (r : Except Cause α) (k : α → Effect) : Effect :=
  match r with
  | .ok x => k x
  | .error c => .raise c

/-- How the step of the instruction with opcode word `op`, begun in `s`, ends (R84, R85, R202, R203). While the host
has not completed the transaction there is no step, and everything is as it was (R213, U9; log entry 4). -/
def complete (op : Field) (s : State) (e : Effect) : Host.Outcome State Fault Refusal :=
  match e with
  | .commit t => .next (t.boundCheck s.pc op)
  | .raise k => .next (s.enterFault k s.pc op)
  | .wait => .fault .waitingForHost

/-! ### What the host reads -/

/-- The code of a status (R32). -/
def Status.code : Status → BitVec 2
  | .running => 0
  | .halted => 1
  | .faulted => 2

/-- The code of a cause (R191). -/
def Cause.code : Cause → BitVec 4
  | .none => 0
  | .unknownOpcode => 1
  | .invalidOperand => 2
  | .invalidRegisterTarget => 3
  | .stackUnderflow => 4
  | .stackOverflow => 5
  | .programCounterOutOfBounds => 6
  | .fetchOutOfRange => 7
  | .divideByZero => 8
  | .invalidMemoryValue => 9
  | .inputExhausted => 10

/-- The read-only status outputs, as the host sees them (R36). -/
structure StatusOutputs where
  status : BitVec 2
  cause : BitVec 4
  faultPc : BitVec 16
  faultOp : BitVec 16
  L : BitVec 16
  sp : BitVec 16
  deriving DecidableEq, Repr

/-- The status outputs of a state (R36). -/
def State.statusOutputs (s : State) : StatusOutputs where
  status := s.status.code
  cause := s.cause.code
  faultPc := s.faultPc
  faultOp := s.faultOp
  L := s.L
  sp := s.sp

end Sys2Proof.Machine
end

