-- ==== Sys2Proof/Syntax.lean ====
section
/-! DEFINITION. The instructions of `30_encoding.md` R78, one constructor per row of the opcode table, and the
operand fields they take (R73). Slots are written in the order a, b, c. -/

namespace Sys2Proof

/-- An operand field, by its class (R73). Every slot can hold every class: what a class means in a slot is the
resolver's business (R74, R75), and a field that the slot does not admit is a fault of the step (R83). -/
inductive Operand where
  /-- A field 0 to 32767. -/
  | literal (w : Word)
  /-- A field 32768 to 32775, naming register `i`. -/
  | register (i : RegIdx)
  /-- A field 32776 to 65535, kept as it stands. -/
  | invalid (f : Field)
  deriving DecidableEq, Repr

/-- The 22 instructions (R78). `inp` is the table's `in`, which is a keyword of Lean. -/
inductive Instr where
  | halt
  | set (a b : Operand)
  | push (a : Operand)
  | pop (a : Operand)
  | eq (a b c : Operand)
  | gt (a b c : Operand)
  | jmp (a : Operand)
  | jt (a b : Operand)
  | jf (a b : Operand)
  | add (a b c : Operand)
  | mult (a b c : Operand)
  | mod (a b c : Operand)
  | and (a b c : Operand)
  | or (a b c : Operand)
  | not (a b : Operand)
  | rmem (a b : Operand)
  | wmem (a b : Operand)
  | call (a : Operand)
  | ret
  | out (a : Operand)
  | inp (a : Operand)
  | noop
  deriving DecidableEq, Repr

/-- The slots an instruction uses, in slot order (R71, R76); the other slots are fetched and ignored (R77). -/
def Instr.operands : Instr → List Operand
  | .halt | .ret | .noop => []
  | .push a | .pop a | .jmp a | .call a | .out a | .inp a => [a]
  | .set a b | .jt a b | .jf a b | .not a b | .rmem a b | .wmem a b => [a, b]
  | .eq a b c | .gt a b c | .add a b c | .mult a b c | .mod a b c | .and a b c | .or a b c => [a, b, c]

/-- The destination slot of an instruction that has one: it is always slot a (R76, R78). -/
def Instr.destination : Instr → Option Operand
  | .set a _ | .not a _ | .rmem a _ | .pop a | .inp a => some a
  | .eq a _ _ | .gt a _ _ | .add a _ _ | .mult a _ _ | .mod a _ _ | .and a _ _ | .or a _ _ => some a
  | .halt | .ret | .noop | .push _ | .jmp _ | .call _ | .out _ | .jt _ _ | .jf _ _ | .wmem _ _ => none

/-- The value slots of an instruction, in slot order (R76, R78). -/
def Instr.values : Instr → List Operand
  | .halt | .ret | .noop | .pop _ | .inp _ => []
  | .push a | .jmp a | .call a | .out a => [a]
  | .set _ b | .not _ b | .rmem _ b => [b]
  | .jt a b | .jf a b | .wmem a b => [a, b]
  | .eq _ b c | .gt _ b c | .add _ b c | .mult _ b c | .mod _ b c | .and _ b c | .or _ b c => [b, c]

/-- The width of an instruction in words, opcode word included (R71, R72). -/
def Instr.width : Instr → Nat
  | .halt | .ret | .noop => 1
  | .push _ | .pop _ | .jmp _ | .call _ | .out _ | .inp _ => 2
  | .set _ _ | .jt _ _ | .jf _ _ | .not _ _ | .rmem _ _ | .wmem _ _ => 3
  | .eq _ _ _ | .gt _ _ _ | .add _ _ _ | .mult _ _ _ | .mod _ _ _ | .and _ _ _ | .or _ _ _ => 4

end Sys2Proof
end

