-- ==== Sys2Proof/Machine/Operands.lean ====
section
/-! DEFINITION. The operand resolver (`30_encoding.md` R74, R75) and the slot patterns instructions share (R76).
Every slot is resolved, in slot order, before anything is written (R83). -/

namespace Sys2Proof.Machine

/-- `val(f)` (R74): a literal is its own value, a register reference the register's current value, an invalid field
raises InvalidOperand. -/
def val (s : State) : Operand → Except Cause Word
  | .literal w => .ok w
  | .register i => .ok (s.readReg i)
  | .invalid _ => .error .invalidOperand

/-- `dst(f)` (R75): a register reference names its register; a literal and an invalid field raise
InvalidRegisterTarget (`90_conflicts.md` C3). -/
def dst : Operand → Except Cause RegIdx
  | .register i => .ok i
  | .literal _ => .error .invalidRegisterTarget
  | .invalid _ => .error .invalidRegisterTarget

/-- Pattern `d v` (R76): x[dst(a)] <- f(val(b)), three words. -/
def unaryToReg (op : Field) (f : Word → Except Cause Word) (a b : Operand) (s : State) :
    Host.Outcome State Fault Refusal :=
  complete op s <|
    resolve (dst a) fun d =>
    resolve (val s b) fun vb =>
    resolve (f vb) fun r =>
    .commit ((s.writeReg d r).advance 3)

/-- Pattern `d v v` (R76): x[dst(a)] <- f(val(b), val(c)), four words. -/
def binaryToReg (op : Field) (f : Word → Word → Except Cause Word) (a b c : Operand) (s : State) :
    Host.Outcome State Fault Refusal :=
  complete op s <|
    resolve (dst a) fun d =>
    resolve (val s b) fun vb =>
    resolve (val s c) fun vc =>
    resolve (f vb vc) fun r =>
    .commit ((s.writeReg d r).advance 4)

/-- Pattern `v v` of the conditional jumps: both slots are resolved, taken or not (R83, `90_conflicts.md` C7). -/
def branchIf (op : Field) (taken : Word → Bool) (a b : Operand) (s : State) : Host.Outcome State Fault Refusal :=
  complete op s <|
    resolve (val s a) fun v =>
    resolve (val s b) fun t =>
    .commit (if taken v then s.jump t else s.advance 3)

end Sys2Proof.Machine
end

