-- ==== Sys2Proof/Machine/Alu.lean ====
section
/-! DEFINITION. add, mult, mod, and, or and not (`44_alu.md`): exact results on natural numbers, narrowed to 15
bits at the end (R150). -/

namespace Sys2Proof.Machine

/-- The sum modulo 32768 (R151). -/
def aluAdd (vb vc : Word) : Word := BitVec.ofNat 15 (vb.toNat + vc.toNat)

/-- Bits 14..0 of the exact product (R152). -/
def aluMult (vb vc : Word) : Word := BitVec.ofNat 15 (vb.toNat * vc.toNat)

/-- The unsigned remainder (R153): DivideByZero if the divisor is 0 (R198). -/
def aluMod (vb vc : Word) : Except Cause Word :=
  if vc = 0 then .error .divideByZero else .ok (BitVec.ofNat 15 (vb.toNat % vc.toNat))

/-- Bitwise and on bits 14..0 (R154). -/
def aluAnd (vb vc : Word) : Word := vb &&& vc

/-- Bitwise or on bits 14..0 (R155). -/
def aluOr (vb vc : Word) : Word := vb ||| vc

/-- The 15-bit complement (R156). -/
def aluNot (vb : Word) : Word := ~~~vb

/-- add (R151). -/
def execAdd (a b c : Operand) (s : State) : Host.Outcome State Fault Refusal :=
  binaryToReg 9 (fun vb vc => .ok (aluAdd vb vc)) a b c s

/-- mult (R152). -/
def execMult (a b c : Operand) (s : State) : Host.Outcome State Fault Refusal :=
  binaryToReg 10 (fun vb vc => .ok (aluMult vb vc)) a b c s

/-- mod (R153). -/
def execMod (a b c : Operand) (s : State) : Host.Outcome State Fault Refusal :=
  binaryToReg 11 (fun vb vc => aluMod vb vc) a b c s

/-- and (R154). -/
def execAnd (a b c : Operand) (s : State) : Host.Outcome State Fault Refusal :=
  binaryToReg 12 (fun vb vc => .ok (aluAnd vb vc)) a b c s

/-- or (R155). -/
def execOr (a b c : Operand) (s : State) : Host.Outcome State Fault Refusal :=
  binaryToReg 13 (fun vb vc => .ok (aluOr vb vc)) a b c s

/-- not (R156). -/
def execNot (a b : Operand) (s : State) : Host.Outcome State Fault Refusal :=
  unaryToReg 14 (fun vb => .ok (aluNot vb)) a b s

end Sys2Proof.Machine
end

