-- ==== Sys2Proof/Machine/Flags.lean ====
section
/-! DEFINITION. The CORE has no flags and no condition codes (`10_state.md` R27): a compare writes 0 or 1 to a
register, and a conditional jump tests a value against zero. These are the computations that stand in for flags. -/

namespace Sys2Proof.Machine

/-- The result of eq (R120). -/
def eqResult (vb vc : Word) : Word := if vb = vc then 1 else 0

/-- The result of gt (R121): strict, unsigned. -/
def gtResult (vb vc : Word) : Word := if vc.toNat < vb.toNat then 1 else 0

/-- The condition jt branches on (R131); jf branches on its negation (R132). -/
def isNonzero (v : Word) : Bool := v != 0

end Sys2Proof.Machine
end

