-- ==== Sys2Proof/Machine/Compare.lean ====
section
/-! DEFINITION. eq and gt (`42_compare.md`). -/

namespace Sys2Proof.Machine

/-- eq (R120). -/
def execEq (a b c : Operand) (s : State) : Host.Outcome State Fault Refusal :=
  binaryToReg 4 (fun vb vc => .ok (eqResult vb vc)) a b c s

/-- gt (R121). -/
def execGt (a b c : Operand) (s : State) : Host.Outcome State Fault Refusal :=
  binaryToReg 5 (fun vb vc => .ok (gtResult vb vc)) a b c s

end Sys2Proof.Machine
end

