-- ==== Sys2Proof/Machine/ControlTransfer.lean ====
section
/-! DEFINITION. jmp, jt, jf, call and ret (`43_control_transfer.md`). -/

namespace Sys2Proof.Machine

/-- jmp (R130). -/
def execJmp (a : Operand) (s : State) : Host.Outcome State Fault Refusal :=
  complete 6 s <|
    resolve (val s a) fun t =>
    .commit (s.jump t)

/-- jt (R131). -/
def execJt (a b : Operand) (s : State) : Host.Outcome State Fault Refusal := branchIf 7 (fun v => isNonzero v) a b s

/-- jf (R132). -/
def execJf (a b : Operand) (s : State) : Host.Outcome State Fault Refusal := branchIf 8 (fun v => !isNonzero v) a b s

/-- The return address of a call, `pc + 2`, as a stack entry: at most 32766 after stage 1, so it fits (R133). -/
def returnAddress (s : State) : Word := BitVec.ofNat 15 (s.pc.toNat + 2)

/-- call (R133). -/
def execCall (a : Operand) (s : State) : Host.Outcome State Fault Refusal :=
  complete 17 s <|
    resolve (val s a) fun t =>
    resolve (s.push (returnAddress s)) fun u =>
    .commit (u.jump t)

/-- ret (R134). -/
def execRet (s : State) : Host.Outcome State Fault Refusal :=
  complete 18 s <|
    resolve s.pop fun p =>
    .commit (p.2.jump p.1)

end Sys2Proof.Machine
end

