-- ==== Sys2Proof/Machine/HostIo.lean ====
section
/-! DEFINITION. out and in (`46_host_io.md`). Until the host completes the transaction there is no
step (R184, R213, U9; log entry 4). -/

namespace Sys2Proof.Machine

/-- out (R182): the low byte goes to the sink once the sink accepts it (R180). -/
def execOut (a : Operand) (s : State) : Host.Outcome State Fault Refusal :=
  complete 19 s <|
    resolve (val s a) fun v =>
    if s.sinkReady then .commit ((s.emitByte (v.setWidth 8)).advance 2) else .wait

/-- in (R183): the destination is checked before the channel is asked; the byte is zero-extended. -/
def execIn (a : Operand) (s : State) : Host.Outcome State Fault Refusal :=
  complete 20 s <|
    resolve (dst a) fun d =>
    match s.inByte with
    | .byte b => .commit ((s.takeByte.writeReg d (b.setWidth 15)).advance 2)
    | .eof => .raise .inputExhausted
    | .notYet => .wait

end Sys2Proof.Machine
end

