-- ==== Sys2Proof/Machine/MachineControl.lean ====
section
/-! DEFINITION. halt and noop (`40_machine_control.md`). -/

namespace Sys2Proof.Machine

/-- halt (R100): enter HALTED; `pc` stays and there is no bound check (`90_conflicts.md` C5). -/
def execHalt (s : State) : Host.Outcome State Fault Refusal := .next s.haltCore

/-- noop (R101). -/
def execNoop (s : State) : Host.Outcome State Fault Refusal := complete 21 s (.commit (s.advance 1))

end Sys2Proof.Machine
end

