-- ==== Sys2Proof/Machine/MemoryAccess.lean ====
section
/-! DEFINITION. rmem and wmem (`45_memory_access.md`). The one addressing mode is absolute: the address is the value
of the address slot (R172). -/

namespace Sys2Proof.Machine

/-- The Word a cell holds: InvalidMemoryValue if bit 15 of the cell is set (R170, R199). -/
def loadWord (s : State) (addr : Word) : Except Cause Word :=
  if (s.memRead addr).getLsbD 15 then .error .invalidMemoryValue else .ok ((s.memRead addr).setWidth 15)

/-- rmem (R170). -/
def execRmem (a b : Operand) (s : State) : Host.Outcome State Fault Refusal :=
  unaryToReg 15 (fun addr => loadWord s addr) a b s

/-- wmem (R171): the stored value is zero-extended to the cell. -/
def execWmem (a b : Operand) (s : State) : Host.Outcome State Fault Refusal :=
  complete 16 s <|
    resolve (val s a) fun addr =>
    resolve (val s b) fun v =>
    .commit ((s.memWrite addr (v.setWidth 16)).advance 3)

end Sys2Proof.Machine
end

