-- ==== Sys2Proof/Machine/RegisterAndStack.lean ====
section
/-! DEFINITION. set, push and pop (`41_register_and_stack.md`). -/

namespace Sys2Proof.Machine

/-- set (R110). -/
def execSet (a b : Operand) (s : State) : Host.Outcome State Fault Refusal := unaryToReg 1 (fun v => .ok v) a b s

/-- push (R111). -/
def execPush (a : Operand) (s : State) : Host.Outcome State Fault Refusal :=
  complete 2 s <|
    resolve (val s a) fun v =>
    resolve (s.push v) fun t =>
    .commit (t.advance 2)

/-- pop (R112): the destination is checked before the stack is touched. -/
def execPop (a : Operand) (s : State) : Host.Outcome State Fault Refusal :=
  complete 3 s <|
    resolve (dst a) fun d =>
    resolve s.pop fun p =>
    .commit ((p.2.writeReg d p.1).advance 2)

end Sys2Proof.Machine
end

