-- ==== Sys2Proof/WellFormed.lean ====
section
/-! DEFINITION. Which terms of `Instr` stand for words of the instruction stream: those whose invalid fields lie
in the invalid range of `30_encoding.md` R73. The other two classes are in range by their types. -/

namespace Sys2Proof

/-- The operand is one a 16-bit field can be classified as (R73). -/
def Operand.wf : Operand → Bool
  | .literal _ => true
  | .register _ => true
  | .invalid f => 32776 ≤ f.toNat

/-- Every slot of the instruction holds a well-formed operand. -/
def Instr.wf (i : Instr) : Bool := i.operands.all Operand.wf

end Sys2Proof
end

