-- ==== Sys2Proof/Decode.lean ====
section
/-! DEFINITION. From words to instructions and back: field classification (`30_encoding.md` R73), the opcode map
(R78) with the illegal encodings (R79), and the encoder (R70, R71, R87). -/

namespace Sys2Proof

/-- Field classification (R73). -/
def classify (f : Field) : Operand :=
  if f.toNat ≤ 32767 then .literal (f.setWidth 15)
  else if h : f.toNat ≤ 32775 then .register ⟨f.toNat - 32768, by omega⟩
  else .invalid f

/-- What the decoder answers: an instruction, or the rejection of R79, by name. -/
inductive Decoded where
  | instr (i : Instr)
  | unknownOpcode (op : Field)
  deriving DecidableEq, Repr

/-- Decoding of the four fetched words (R70, R78, R79, R82). The match is on the whole opcode word; slots the
opcode does not use are ignored (R77). -/
def decode (op a b c : Field) : Decoded :=
  match op.toNat with
  | 0 => .instr .halt
  | 1 => .instr (.set (classify a) (classify b))
  | 2 => .instr (.push (classify a))
  | 3 => .instr (.pop (classify a))
  | 4 => .instr (.eq (classify a) (classify b) (classify c))
  | 5 => .instr (.gt (classify a) (classify b) (classify c))
  | 6 => .instr (.jmp (classify a))
  | 7 => .instr (.jt (classify a) (classify b))
  | 8 => .instr (.jf (classify a) (classify b))
  | 9 => .instr (.add (classify a) (classify b) (classify c))
  | 10 => .instr (.mult (classify a) (classify b) (classify c))
  | 11 => .instr (.mod (classify a) (classify b) (classify c))
  | 12 => .instr (.and (classify a) (classify b) (classify c))
  | 13 => .instr (.or (classify a) (classify b) (classify c))
  | 14 => .instr (.not (classify a) (classify b))
  | 15 => .instr (.rmem (classify a) (classify b))
  | 16 => .instr (.wmem (classify a) (classify b))
  | 17 => .instr (.call (classify a))
  | 18 => .instr .ret
  | 19 => .instr (.out (classify a))
  | 20 => .instr (.inp (classify a))
  | 21 => .instr .noop
  | _ => .unknownOpcode op

/-- The field that encodes an operand (R73): the literal itself, 32768 + i for register i, an invalid field as it is. -/
def Operand.field : Operand → Field
  | .literal w => w.setWidth 16
  | .register i => BitVec.ofNat 16 (32768 + i.val)
  | .invalid f => f

/-- The opcode word of an instruction (R78). -/
def Instr.opcode : Instr → Field
  | .halt => 0
  | .set _ _ => 1
  | .push _ => 2
  | .pop _ => 3
  | .eq _ _ _ => 4
  | .gt _ _ _ => 5
  | .jmp _ => 6
  | .jt _ _ => 7
  | .jf _ _ => 8
  | .add _ _ _ => 9
  | .mult _ _ _ => 10
  | .mod _ _ _ => 11
  | .and _ _ _ => 12
  | .or _ _ _ => 13
  | .not _ _ => 14
  | .rmem _ _ => 15
  | .wmem _ _ => 16
  | .call _ => 17
  | .ret => 18
  | .out _ => 19
  | .inp _ => 20
  | .noop => 21

/-- The words of an instruction: its opcode word, then the fields of the slots it uses, in order (R70, R87). -/
def encode (i : Instr) : List Field := i.opcode :: i.operands.map Operand.field

/-- The `k`-th 16-bit word of an instruction given as one number, the first word lowest; every bit from `nbits`
up counts as 0. -/
def tableWord (nbits w k : Nat) : Field := BitVec.ofNat 16 (w % 2 ^ nbits / 2 ^ (16 * k))

/-- The instruction the decoder reads from an instruction numbered as spec/opcode_table.json numbers it. -/
def decodeTableWord (nbits w : Nat) : Option Instr :=
  match decode (tableWord nbits w 0) (tableWord nbits w 1) (tableWord nbits w 2) (tableWord nbits w 3) with
  | .instr i => some i
  | .unknownOpcode _ => none

end Sys2Proof
end

