-- ==== Sys2Proof/Machine/Fetch.lean ====
section
/-! DEFINITION. Stages 1 and 2 of a step (`30_encoding.md` R81, R82), what keeps the CORE from taking one, and how an
instruction is placed where the next step fetches. -/

namespace Sys2Proof.Machine

/-- Why the CORE takes no step in `s`, if it takes none: reset asserted (R220), HALTED or FAULTED (R32, R205). -/
def State.stopped (s : State) : Option Fault :=
  if s.resetAsserted then some .coreInReset
  else match s.status with
    | .running => none
    | .halted => some .coreHalted
    | .faulted => some .coreFaulted

/-- The word of slot `k`, at `pc + k` (R70, R82). After stage 1 the address is below 32768. -/
def State.slot (s : State) (k : Nat) : Field := s.memRead (BitVec.ofNat 15 (s.pc.toNat + k))

/-- What stages 1 and 2 come to: an instruction, or a fault with the opcode word to record (R35). -/
inductive Fetched where
  | instr (i : Instr)
  | fault (k : Cause) (op : Field)
  deriving DecidableEq, Repr

/-- Stage 1: FetchOutOfRange if a slot would lie above the Address Space (R81), with no word fetched (R35).
Stage 2: read the four slots and decode; UnknownOpcode for an illegal opcode word (R82, R192). -/
def State.fetch (s : State) : Fetched :=
  if Config.lastFetchPc < s.pc.toNat then .fault .fetchOutOfRange 0
  else match decode (s.slot 0) (s.slot 1) (s.slot 2) (s.slot 3) with
    | .instr i => .instr i
    | .unknownOpcode op => .fault .unknownOpcode op

/-- Place one instruction, given as one number the way spec/opcode_table.json numbers it, in the four slots of the
next step, and record a program length that takes them in, as the loader does (R222; log entry 8). Where the four
slots do not lie in the Address Space nothing can be placed. -/
def State.placeInstr (s : State) (nbits w : Nat) : State :=
  if Config.lastFetchPc < s.pc.toNat then s
  else
    let p := s.pc.toNat
    let t := (((s.memWrite (BitVec.ofNat 15 p) (tableWord nbits w 0)).memWrite (BitVec.ofNat 15 (p + 1))
      (tableWord nbits w 1)).memWrite (BitVec.ofNat 15 (p + 2)) (tableWord nbits w 2)).memWrite
      (BitVec.ofNat 15 (p + 3)) (tableWord nbits w 3)
    { t with L := BitVec.ofNat 16 (max s.L.toNat (p + 4)) }

end Sys2Proof.Machine
end

