-- ==== Sys2Proof/Machine/Step.lean ====
section
/-! DEFINITION. The step (`30_encoding.md` R81 to R86). -/

namespace Sys2Proof.Machine

/-- One step (R86): none where the CORE is stopped; else fetch and decode, then the instruction's own meaning with
its retirement, or the fault of stage 1 or 2. -/
def step (s : State) : Host.Outcome State Fault Refusal :=
  match s.stopped with
  | some r => .fault r
  | none =>
    match s.fetch with
    | .instr i => exec i s
    | .fault k op => .next (s.enterFault k s.pc op)

/-- The state with one instruction placed where `step` fetches next. -/
def State.withFetchWord (s : State) (nbits w : Nat) : State := s.placeInstr nbits w

end Sys2Proof.Machine
end

