-- ==== Sys2Proof/Machine/Environment.lean ====
section
/-! DEFINITION. What the environment does to the machine, between steps: the reset input (`70_reset_and_hazards.md`
R220), the loader (R222, `20_memory.md` R53, `60_exceptions.md` R206) and the host channel (`46_host_io.md` R184). -/

namespace Sys2Proof.Machine

/-- Reset is asserted: the CORE takes no step from here on (R220). It may be asserted in any state. -/
def assertReset (s : State) : State := { s with resetAsserted := true }

/-- Reset is released: every piece of CORE state takes its value of R38, and memory, `L` and the host channel stay as
the environment left them (R220). The stack's storage is unspecified after reset, so nothing is known of any entry
(log entry 9). -/
def releaseReset (s : State) : State :=
  { s with
    regs := Vector.replicate 8 0
    pc := 0
    stk := []
    sp := 0
    status := .running
    cause := .none
    faultPc := 0
    faultOp := 0
    resetAsserted := false }

/-- The words of an image: consecutive byte pairs, low byte first (R53). `none` for an odd number of bytes. -/
def imageWords : List Byte → Option (List Field)
  | [] => some []
  | [_] => none
  | lo :: hi :: rest => (imageWords rest).map fun ws => (hi ++ lo : Field) :: ws

/-- `words` written to the cells from `k` on. -/
def Memory.writeWords (m : Memory) (k : Nat) : List Field → Memory
  | [] => m
  | w :: ws => Memory.writeWords (m.writeCell k w) (k + 1) ws

/-- Why the loader gives up (R206): LoadError, raised before the CORE starts. -/
inductive LoadError where
  | unreadable
  | oddLength
  | tooLong
  deriving DecidableEq, Repr

/-- The loader's work on memory and `L` (R222, 1 to 3): all cells zero, then the image, then its length in words.
An unreadable image is `none` (log entry 14); a LoadError gives no state, so nothing the loader did is kept (log
entry 15). -/
def load (image : Option (List Byte)) (s : State) : Except LoadError State :=
  match image with
  | none => .error .unreadable
  | some bytes =>
    match imageWords bytes with
    | none => .error .oddLength
    | some ws =>
      if Config.addressCells < ws.length then .error .tooLong
      else .ok { s with mem := Memory.writeWords [] 0 ws, L := BitVec.ofNat 16 ws.length }

/-- What a run is launched with (`00_scope.md` R7): the image, the input stream, whether it ends, and whether the
sink accepts bytes. -/
structure Launch where
  image : Option (List Byte)
  input : List Byte
  inputEnded : Bool
  sinkReady : Bool
  deriving DecidableEq, Repr

/-- The host channel is connected (R222, 4): the stream at its beginning, nothing output yet. -/
def connectHost (l : Launch) (s : State) : State :=
  { s with input := l.input, inputPos := 0, inputEnded := l.inputEnded, output := [], sinkReady := l.sinkReady }

/-- Boot (R222): assert reset, load, connect the host channel, release reset. After a LoadError reset stays asserted
(R206). DESIGN CHOICE: memory, `L` and the host channel are then as they were before the boot; the spec does not say
what the loader has done by the time it reports the error (log entry 15). -/
def boot (l : Launch) (s : State) : Option LoadError × State :=
  match load l.image (assertReset s) with
  | .error e => (some e, assertReset s)
  | .ok t => (none, releaseReset (connectHost l t))

/-- The host offers the next byte of the input stream (R181). Once it has reported the end it offers none. -/
def deliverByte (b : Byte) (s : State) : State :=
  if s.inputEnded then s else { s with input := s.input ++ [b] }

/-- The host reports the end of the input stream (R181, R184). -/
def endInput (s : State) : State := { s with inputEnded := true }

/-- The sink starts or stops accepting bytes (R180, R184). -/
def setSinkReady (ready : Bool) (s : State) : State := { s with sinkReady := ready }

end Sys2Proof.Machine
end

