-- ==== Sys2Proof/Safety.lean ====
section
/-! DEFINITION. What counts as a safe state and a safe run, and the terms claims are written in. -/

namespace Sys2Proof.Machine

/-! ### The invariant -/

/-- The invariant of every state a run reaches: storage in canonical form, the invariants of `10_state.md` R39, the
range of `pc` (R24), every live stack entry written (R30), and the fault record of R33 to R35. That storage has a
canonical form and that an entry can be unwritten are the model's choices (log entries 6 and 2). -/
structure State.Inv (s : State) : Prop where
  /-- Memory is in its one canonical form. -/
  memory : s.mem.wf = true
  /-- The stack's storage is in canonical form. -/
  storage : StackStore.wf s.stk = true
  /-- At most 32768 live entries (R39). -/
  depth : s.sp.toNat ≤ 32768
  /-- A pop never reads an entry that no push wrote (R30, R38). -/
  live : ∀ k, k < s.sp.toNat → (Store.find k s.stk).isSome = true
  /-- The program length fits the Address Space (R39). -/
  length : s.L.toNat ≤ 32768
  /-- The program counter takes values 0 to 32768 (R24). -/
  pcRange : s.pc.toNat ≤ 32768
  /-- While RUNNING, `pc` is at most `L` (R39). -/
  pcBound : s.status = .running → s.pc.toNat ≤ s.L.toNat
  /-- Outside FAULTED the fault record is as at reset (R33 to R35). -/
  unfaulted : s.status ≠ .faulted → s.cause = .none ∧ s.faultPc = 0 ∧ s.faultOp = 0
  /-- In FAULTED there is a cause (R33). -/
  faulted : s.status = .faulted → s.cause ≠ .none
  /-- The position reached in the input stream lies within what the host has offered (R181). -/
  position : s.inputPos ≤ s.input.length

/-- The states a run can reach: a booted machine, then steps of the CORE and acts of the environment, in any order. -/
inductive Reachable : State → Prop where
  | boot (l : Launch) (s t : State) : Machine.boot l s = (none, t) → Reachable t
  | step (s t : State) : Reachable s → Machine.step s = .next t → Reachable t
  | deliverByte (b : Byte) (s : State) : Reachable s → Reachable (Machine.deliverByte b s)
  | endInput (s : State) : Reachable s → Reachable (Machine.endInput s)
  | setSinkReady (ready : Bool) (s : State) : Reachable s → Reachable (Machine.setSinkReady ready s)
  | assertReset (s : State) : Reachable s → Reachable (Machine.assertReset s)
  | releaseReset (s : State) : Reachable s → Reachable (Machine.releaseReset s)

/-- The CORE can take a step: reset is not asserted and the run has not ended (R32, R220). -/
def State.Ready (s : State) : Prop := s.resetAsserted = false ∧ s.status = .running

/-! ### How an instruction ends -/

/-- Instruction `i`, run in `s`, waits on the host: an out with its value resolved and a sink that does not accept it,
or an in with its register resolved and neither a byte nor the end of the stream at the port (R180, R181, R213). -/
def AwaitsHost (i : Instr) (s : State) : Prop :=
  (∃ a v, i = .out a ∧ val s a = .ok v ∧ s.sinkReady = false) ∨
  (∃ d, i = .inp (.register d) ∧ s.input.length ≤ s.inputPos ∧ s.inputEnded = false)

/-- The instruction takes fault `k` and changes nothing but the fault record and the status (R202, R203). -/
def FaultsWith (i : Instr) (s : State) (k : Cause) : Prop :=
  exec i s = .next (s.enterFault k s.pc i.opcode)

/-- The instruction commits its writes, which make the state `t`, and then faults on the bound check (R26, R202). -/
def Overruns (i : Instr) (s t : State) : Prop :=
  exec i s = .next (t.enterFault .programCounterOutOfBounds s.pc i.opcode)

/-- What the instruction commits in `s` is what it commits where the bound check cannot fail, and `t` is that state but
for the status and the fault record: every write of the step is done (R26, R202). -/
def CommitsAllWrites (i : Instr) (s t : State) : Prop :=
  exec i { s with L := 65535 } = .next
    { t with L := 65535, status := s.status, cause := s.cause, faultPc := s.faultPc, faultOp := s.faultOp }

/-- The operand is no register reference: a literal or an invalid field (R73). -/
def NotRegister (a : Operand) : Prop := ∀ d, a ≠ .register d

/-- Encoding and slot faults of an instruction with opcode number `n` and slots `d` (R71, R76, R83). -/
def SlotsD (n : Field) (mk : Operand → Instr) : Prop :=
  (∀ a, encode (mk a) = [n, a.field]) ∧
  (∀ s a, NotRegister a → FaultsWith (mk a) s .invalidRegisterTarget)

/-- Encoding and slot faults of an instruction with opcode number `n` and slots `v` (R71, R76, R83). -/
def SlotsV (n : Field) (mk : Operand → Instr) : Prop :=
  (∀ a, encode (mk a) = [n, a.field]) ∧
  (∀ s f, FaultsWith (mk (.invalid f)) s .invalidOperand)

/-- Encoding and slot faults of an instruction with opcode number `n` and slots `d v` (R71, R76, R83). -/
def SlotsDV (n : Field) (mk : Operand → Operand → Instr) : Prop :=
  (∀ a b, encode (mk a b) = [n, a.field, b.field]) ∧
  (∀ s a b, NotRegister a → FaultsWith (mk a b) s .invalidRegisterTarget) ∧
  (∀ s d f, FaultsWith (mk (.register d) (.invalid f)) s .invalidOperand)

/-- Encoding and slot faults of an instruction with opcode number `n` and slots `v v` (R71, R76, R83). -/
def SlotsVV (n : Field) (mk : Operand → Operand → Instr) : Prop :=
  (∀ a b, encode (mk a b) = [n, a.field, b.field]) ∧
  (∀ s f b, FaultsWith (mk (.invalid f) b) s .invalidOperand) ∧
  (∀ s a va f, val s a = .ok va → FaultsWith (mk a (.invalid f)) s .invalidOperand)

/-- Encoding and slot faults of an instruction with opcode number `n` and slots `d v v` (R71, R76, R83). -/
def SlotsDVV (n : Field) (mk : Operand → Operand → Operand → Instr) : Prop :=
  (∀ a b c, encode (mk a b c) = [n, a.field, b.field, c.field]) ∧
  (∀ s a b c, NotRegister a → FaultsWith (mk a b c) s .invalidRegisterTarget) ∧
  (∀ s d f c, FaultsWith (mk (.register d) (.invalid f) c) s .invalidOperand) ∧
  (∀ s d b vb f, val s b = .ok vb → FaultsWith (mk (.register d) b (.invalid f)) s .invalidOperand)

/-! ### How a run ends -/

/-- `n` steps lead from `s` to `t`. -/
def RunsFor : Nat → State → State → Prop
  | 0, s, t => t = s
  | n + 1, s, t => ∃ u, step s = .next u ∧ RunsFor n u t

/-- The run from `s` ends HALTED (R228, 1). -/
def RunHalts (s : State) : Prop := ∃ n t, RunsFor n s t ∧ t.status = .halted

/-- The run from `s` ends FAULTED, with a cause (R228, 2). -/
def RunFaults (s : State) : Prop := ∃ n t, RunsFor n s t ∧ t.status = .faulted ∧ t.cause ≠ .none

/-- The run from `s` goes on for ever, RUNNING (R228, 3). -/
def RunLoops (s : State) : Prop := ∀ n, ∃ t, RunsFor n s t ∧ t.status = .running

/-- The run from `s` comes to an in or out whose transaction the host does not complete, RUNNING and without a step
(R228, 4; U9). -/
def RunWaits (s : State) : Prop :=
  ∃ n t i, RunsFor n s t ∧ t.status = .running ∧ t.fetch = .instr i ∧ AwaitsHost i t ∧ step t = .fault .waitingForHost

/-! ### What stays unchanged -/

/-- Every byte of the Address Space reads as before. -/
def SameMemory (s t : State) : Prop := ∀ k, t.mem.readByte k = s.mem.readByte k

/-- Every register holds what it held before. -/
def SameRegs (s t : State) : Prop := ∀ j, t.readReg j = s.readReg j

/-- The stack's entries and depth are as before. -/
def SameStack (s t : State) : Prop := (∀ k, StackStore.read t.stk k = StackStore.read s.stk k) ∧ t.sp = s.sp

/-- What lies outside the CORE's programs: `L`, the reset input, and what the host does with its channel. -/
def SameLaunch (s t : State) : Prop :=
  t.L = s.L ∧ t.resetAsserted = s.resetAsserted ∧ t.input = s.input ∧ t.inputEnded = s.inputEnded ∧
  t.sinkReady = s.sinkReady

/-- The positions reached in the host streams are as before. -/
def SameStreams (s t : State) : Prop := t.inputPos = s.inputPos ∧ t.output = s.output

/-- Status and fault record are as before, or the instruction faulted and they say so (R203). -/
def StatusKeptOrFaulted (i : Instr) (s t : State) : Prop :=
  (t.status = s.status ∧ t.cause = s.cause ∧ t.faultPc = s.faultPc ∧ t.faultOp = s.faultOp) ∨
  (t.status = .faulted ∧ t.cause ≠ .none ∧ t.faultPc = s.pc ∧ t.faultOp = i.opcode)

/-- What the host may not touch (R5, R184): the CORE state and the Address Space. -/
def SameCore (s t : State) : Prop :=
  t.regs = s.regs ∧ t.pc = s.pc ∧ t.stk = s.stk ∧ t.sp = s.sp ∧ t.L = s.L ∧ t.status = s.status ∧ t.cause = s.cause ∧
  t.faultPc = s.faultPc ∧ t.faultOp = s.faultOp ∧ t.mem = s.mem

end Sys2Proof.Machine
end

