-- ==== Sys2Proof/Certificates/Slice0/Obligations.lean ====
section
/-! DEFINITION. The statements about this machine, from the rules of the spec. The terms they share are in
`Sys2Proof/Safety.lean`. -/

open Sys2Proof Sys2Proof.Machine

/-! ### Encoding -/

/-- Decoding the words of a well-formed instruction gives it back, whatever follows them: no bit of a used slot is
dropped, and unused slots do not matter (R70, R71, R77, R78). -/
def Obligations.DecodeOfEncode : Prop :=
  ∀ (i : Instr) (x y z : Field), i.wf = true →
    ∃ op a b c rest, encode i ++ [x, y, z] = op :: a :: b :: c :: rest ∧ decode op a b c = .instr i

/-- Every instruction the decoder gives is well-formed, and its encoding is the words it was read from: each word has
one meaning (R70, R71, R72, R78). -/
def Obligations.EncodeOfDecode : Prop :=
  ∀ (op a b c : Field) (i : Instr), decode op a b c = .instr i →
    i.wf = true ∧ encode i = [op, a, b, c].take i.width

/-- Words written out from the opcode map and the register numbering decode to what they stand for. -/
def Obligations.WrittenOutWordsDecode : Prop :=
  decode 0 9 9 9 = .instr .halt ∧
  decode 2 7 17 9 = .instr (.push (.literal 7)) ∧
  decode 4 32769 32769 0 = .instr (.eq (.register 1) (.register 1) (.literal 0)) ∧
  decode 7 32768 3 16 = .instr (.jt (.register 0) (.literal 3)) ∧
  decode 9 32768 32769 4 = .instr (.add (.register 0) (.register 1) (.literal 4)) ∧
  decode 16 50 32769 15 = .instr (.wmem (.literal 50) (.register 1)) ∧
  decode 19 32776 0 0 = .instr (.out (.invalid 32776)) ∧
  decode 20 32775 0 0 = .instr (.inp (.register 7))

/-- R73 and R80: the three classes of a field by range and by bits, and the decoder's validity equation. -/
def Obligations.ClassesByRangeAndByBits : Prop :=
  (∀ f : Field, f.toNat ≤ 32767 → classify f = .literal (f.extractLsb' 0 15)) ∧
  (∀ (f : Field) (i : RegIdx), f.toNat = 32768 + i.val → classify f = .register i ∧ i.val = (f.extractLsb' 0 3).toNat) ∧
  (∀ f : Field, 32776 ≤ f.toNat → classify f = .invalid f) ∧
  (∀ f : Field, (∃ w, classify f = .literal w) ↔ f.getLsbD 15 = false) ∧
  (∀ f : Field, (∃ i, classify f = .register i) ↔ f.getLsbD 15 = true ∧ f.extractLsb' 3 12 = 0) ∧
  (∀ f : Field, (∃ g, classify f = .invalid g) ↔ f.getLsbD 15 = true ∧ f.extractLsb' 3 12 ≠ 0) ∧
  (∀ op a b c : Field, (∃ i, decode op a b c = .instr i) ↔ op.extractLsb' 5 11 = 0 ∧ (op.extractLsb' 0 5).toNat ≤ 21) ∧
  (∀ (op a b c : Field) (i : Instr), decode op a b c = .instr i → i.opcode.toNat = (op.extractLsb' 0 5).toNat)

/-- R79 and R192: every opcode word from 22 up, and no other, is rejected, and executing one raises UnknownOpcode and
records the word. -/
def Obligations.IllegalOpcodesFault : Prop :=
  (∀ op a b c : Field, decode op a b c = .unknownOpcode op ↔ 22 ≤ op.toNat) ∧
  (∀ s : State, s.Ready → s.pc.toNat ≤ 32764 → 22 ≤ (s.slot 0).toNat →
    step s = .next (s.enterFault .unknownOpcode s.pc (s.slot 0)))

/-! ### Operands -/

/-- R74: the value of a field in a value slot. -/
def Obligations.ValueOfField : Prop :=
  (∀ (s : State) (f : Field), f.toNat ≤ 32767 → val s (classify f) = .ok (f.setWidth 15)) ∧
  (∀ (s : State) (f : Field) (i : RegIdx), f.toNat = 32768 + i.val → val s (classify f) = .ok (s.readReg i)) ∧
  (∀ (s : State) (f : Field), 32776 ≤ f.toNat → val s (classify f) = .error .invalidOperand)

/-- R75: the register a field in a destination slot names. -/
def Obligations.DestinationOfField : Prop :=
  (∀ (f : Field) (i : RegIdx), f.toNat = 32768 + i.val → dst (classify f) = .ok i) ∧
  (∀ f : Field, f.toNat ≤ 32767 ∨ 32776 ≤ f.toNat → dst (classify f) = .error .invalidRegisterTarget)

/-! ### The step -/

/-- When the four words at `pc` decode to an instruction, a step is that instruction's meaning, and it is well-formed
(R82, R86). -/
def Obligations.StepRunsDecodedInstruction : Prop :=
  ∀ (s : State) (i : Instr), s.Ready → s.pc.toNat ≤ 32764 →
    decode (s.memRead (BitVec.ofNat 15 s.pc.toNat)) (s.memRead (BitVec.ofNat 15 (s.pc.toNat + 1)))
      (s.memRead (BitVec.ofNat 15 (s.pc.toNat + 2))) (s.memRead (BitVec.ofNat 15 (s.pc.toNat + 3))) = .instr i →
    i.wf = true ∧ step s = exec i s

/-- An instruction placed where the next step fetches is what that step runs. The placement, with the program length
it sets, is the model's own (log entry 8). -/
def Obligations.PlacedInstructionRuns : Prop :=
  ∀ (s : State) (nbits w : Nat) (i : Instr), s.Ready → s.pc.toNat ≤ 32764 → decodeTableWord nbits w = some i →
    step (s.withFetchWord nbits w) = exec i (s.withFetchWord nbits w)

/-- R81 and R197: a step whose slots do not all lie in the Address Space raises FetchOutOfRange, whatever is in
memory, and records no opcode word. -/
def Obligations.FetchOutOfRangeFaults : Prop :=
  ∀ s : State, s.Ready → 32764 < s.pc.toNat → step s = .next (s.enterFault .fetchOutOfRange s.pc 0)

/-- R32, R36 and R205: the codes of `status`, and the six outputs the host reads of any state; HALTED is entered by
halt and by nothing else, FAULTED only with a cause, and in neither is there a step. That the absence of a step is a
fault of its own name is log entry 5; that the outputs are codes of named values is log entry 10. -/
def Obligations.StatusIsTerminal : Prop :=
  Status.running.code = 0 ∧ Status.halted.code = 1 ∧ Status.faulted.code = 2 ∧
  (∀ s : State, s.statusOutputs.status = s.status.code ∧ s.statusOutputs.cause = s.cause.code ∧
    s.statusOutputs.faultPc = s.faultPc ∧ s.statusOutputs.faultOp = s.faultOp ∧ s.statusOutputs.L = s.L ∧
    s.statusOutputs.sp = s.sp) ∧
  (∀ s : State, s.resetAsserted = false → s.status = .halted → step s = .fault .coreHalted) ∧
  (∀ s : State, s.resetAsserted = false → s.status = .faulted → step s = .fault .coreFaulted) ∧
  (∀ (i : Instr) (s t : State), s.status = .running → exec i s = .next t →
    (t.status = .halted ↔ i = .halt) ∧ (t.status = .faulted → t.cause ≠ .none)) ∧
  (∀ s t : State, s.Ready → step s = .next t → (t.status = .halted ↔ s.fetch = .instr .halt))

/-- Every instruction answers a next state in every state, but for an out or in that waits on the host, which then has
no step: what the spec calls a fault is the entry of R203. That the absence of a step is a fault of its own name is log
entry 4. -/
def Obligations.InstructionsStopOnlyToAwaitHost : Prop :=
  ∀ (i : Instr) (s : State),
    (¬AwaitsHost i s → ∃ t, exec i s = .next t) ∧ (AwaitsHost i s → exec i s = .fault .waitingForHost)

/-- R228 and U9: a run goes one of four ways and only one, if neither the host nor the reset input acts any more: it
ends HALTED, ends FAULTED with a cause, goes on for ever RUNNING, or comes to an in or out whose transaction the host
does not complete, which leaves it RUNNING and without a step. That this absence of a step is a fault of its own name
is log entry 4. -/
def Obligations.RunGoesExactlyOneOfFourWays : Prop :=
  ∀ s : State, Reachable s → s.resetAsserted = false →
    (RunHalts s ∨ RunFaults s ∨ RunLoops s ∨ RunWaits s) ∧
    ¬(RunHalts s ∧ RunFaults s) ∧ ¬(RunHalts s ∧ RunLoops s) ∧ ¬(RunHalts s ∧ RunWaits s) ∧
    ¬(RunFaults s ∧ RunLoops s) ∧ ¬(RunFaults s ∧ RunWaits s) ∧ ¬(RunLoops s ∧ RunWaits s)

/-- R202: a fault of stages 1 to 4 changes nothing but the four registers of fault entry, with the values R203 gives
them; ProgramCounterOutOfBounds comes after every write of the instruction, and its record is the same. -/
def Obligations.FaultEntryIsPrecise : Prop :=
  ∀ s t : State, s.Ready → step s = .next t → t.status = .faulted →
    t.faultPc = s.pc ∧ t.cause ≠ .none ∧
    (t.faultOp = if t.cause = .fetchOutOfRange then 0 else s.slot 0) ∧
    (t.cause ≠ .programCounterOutOfBounds →
      t = { s with status := .faulted, cause := t.cause, faultPc := s.pc, faultOp := t.faultOp }) ∧
    (t.cause = .programCounterOutOfBounds →
      t.L.toNat < t.pc.toNat ∧ ∃ i, s.fetch = .instr i ∧ i ≠ .halt ∧ CommitsAllWrites i s t)

/-- R191: the cause codes, and for each cause what raises it. -/
def Obligations.CausesAndWhatRaisesThem : Prop :=
  (Cause.none.code = 0 ∧ Cause.unknownOpcode.code = 1 ∧ Cause.invalidOperand.code = 2 ∧
    Cause.invalidRegisterTarget.code = 3 ∧ Cause.stackUnderflow.code = 4 ∧ Cause.stackOverflow.code = 5 ∧
    Cause.programCounterOutOfBounds.code = 6 ∧ Cause.fetchOutOfRange.code = 7 ∧ Cause.divideByZero.code = 8 ∧
    Cause.invalidMemoryValue.code = 9 ∧ Cause.inputExhausted.code = 10) ∧
  ∀ s t : State, s.Ready → step s = .next t → t.status = .faulted →
    match t.cause with
    | .none => False
    | .unknownOpcode => s.pc.toNat ≤ 32764 ∧ 22 ≤ (s.slot 0).toNat
    | .invalidOperand => ∃ i f, s.fetch = .instr i ∧ .invalid f ∈ i.values
    | .invalidRegisterTarget => ∃ i a, s.fetch = .instr i ∧ i.destination = some a ∧ NotRegister a
    | .stackUnderflow => s.sp = 0 ∧ (s.fetch = .instr .ret ∨ ∃ a, s.fetch = .instr (.pop a))
    | .stackOverflow => s.sp.toNat = 32768 ∧ ∃ a, s.fetch = .instr (.push a) ∨ s.fetch = .instr (.call a)
    | .programCounterOutOfBounds => ∃ i, s.fetch = .instr i ∧ i ≠ .halt ∧ t.L.toNat < t.pc.toNat
    | .fetchOutOfRange => 32764 < s.pc.toNat
    | .divideByZero => ∃ a b c, s.fetch = .instr (.mod a b c) ∧ val s c = .ok 0
    | .invalidMemoryValue => ∃ a b addr, s.fetch = .instr (.rmem a b) ∧ val s b = .ok addr ∧
        32768 ≤ (s.memRead addr).toNat
    | .inputExhausted => ∃ a, s.fetch = .instr (.inp a) ∧ s.input.length ≤ s.inputPos ∧ s.inputEnded = true

/-- The bound check of R26: after any instruction but halt the machine is RUNNING only with `pc` at most `L`; above
`L` it has faulted with ProgramCounterOutOfBounds, `pc` holding the out-of-range value, which never wrapped; and halt
leaves `pc` alone and is not checked. -/
def Obligations.BoundCheckAfterEveryInstruction : Prop :=
  (∀ (i : Instr) (s t : State), i ≠ .halt → s.status = .running → s.pc.toNat ≤ 32764 → s.pc.toNat ≤ s.L.toNat →
    exec i s = .next t →
      (t.status = .running → t.pc.toNat ≤ t.L.toNat) ∧
      (t.L.toNat < t.pc.toNat →
        t.status = .faulted ∧ t.cause = .programCounterOutOfBounds ∧ CommitsAllWrites i s t) ∧
      t.pc.toNat ≤ 32768) ∧
  (∀ s t : State, exec .halt s = .next t → t.pc = s.pc ∧ t.status = .halted)

/-! ### The instructions, one statement each -/

/-- R100. -/
def Obligations.HaltRule : Prop :=
  encode .halt = [0] ∧
  (∀ s : State, exec .halt s = .next { s with status := .halted }) ∧
  (∀ s : State, s.Ready → s.pc.toNat ≤ 32764 → s.slot 0 = 0 → step s = .next { s with status := .halted }) ∧
  (∀ s : State, s.Ready → 32764 < s.pc.toNat → step s = .next (s.enterFault .fetchOutOfRange s.pc 0))

/-- R101, with the sequential update of `pc` itself, at every width (R25): from where stage 1 lets a step begin it
adds the width, does not wrap, and touches nothing else. -/
def Obligations.NoopRule : Prop :=
  encode .noop = [21] ∧
  (∀ (s : State) (n : Nat), s.pc.toNat ≤ 32764 → n ≤ 4 →
    (s.advance n).pc.toNat = s.pc.toNat + n ∧ { s.advance n with pc := s.pc } = s) ∧
  (∀ s : State, s.pc.toNat + 1 ≤ s.L.toNat → exec .noop s = .next (s.advance 1)) ∧
  (∀ s : State, s.pc.toNat ≤ 32764 → s.L.toNat < s.pc.toNat + 1 → Overruns .noop s (s.advance 1))

/-- R110, and the register then reads as the value, all 15 bits of it, also as the value slot of a later instruction
(R21, R74). -/
def Obligations.SetRule : Prop :=
  SlotsDV 1 .set ∧
  (∀ (s : State) d b vb, val s b = .ok vb → s.pc.toNat + 3 ≤ s.L.toNat →
    ∃ t, exec (.set (.register d) b) s = .next t ∧ t = (s.writeReg d vb).advance 3 ∧ t.readReg d = vb ∧
      val t (.register d) = .ok vb) ∧
  (∀ (s : State) d b vb, val s b = .ok vb → s.pc.toNat ≤ 32764 → s.L.toNat < s.pc.toNat + 3 →
    Overruns (.set (.register d) b) s ((s.writeReg d vb).advance 3))

/-- R111. -/
def Obligations.PushRule : Prop :=
  SlotsV 2 .push ∧
  (∀ (s : State) a va, val s a = .ok va → s.sp.toNat = 32768 → FaultsWith (.push a) s .stackOverflow) ∧
  (∀ (s : State) a va, val s a = .ok va → s.sp.toNat < 32768 → s.pc.toNat + 2 ≤ s.L.toNat →
    exec (.push a) s = .next ((s.pushEntry va).advance 2) ∧ (s.pushEntry va).top = va ∧
      (s.pushEntry va).sp.toNat = s.sp.toNat + 1) ∧
  (∀ (s : State) a va, val s a = .ok va → s.sp.toNat < 32768 → s.pc.toNat ≤ 32764 → s.L.toNat < s.pc.toNat + 2 →
    Overruns (.push a) s ((s.pushEntry va).advance 2))

/-- R112. -/
def Obligations.PopRule : Prop :=
  SlotsD 3 .pop ∧
  (∀ (s : State) d, s.sp = 0 → FaultsWith (.pop (.register d)) s .stackUnderflow) ∧
  (∀ (s : State) d, s.sp ≠ 0 → s.pc.toNat + 2 ≤ s.L.toNat →
    exec (.pop (.register d)) s =
      .next (({ s with sp := s.sp - 1 }.writeReg d (StackStore.read s.stk (s.sp.toNat - 1))).advance 2)) ∧
  (∀ (s : State) d, s.sp ≠ 0 → s.pc.toNat ≤ 32764 → s.L.toNat < s.pc.toNat + 2 →
    Overruns (.pop (.register d)) s
      (({ s with sp := s.sp - 1 }.writeReg d (StackStore.read s.stk (s.sp.toNat - 1))).advance 2))

/-- R120. -/
def Obligations.EqRule : Prop :=
  SlotsDVV 4 .eq ∧
  (∀ (s : State) d b c vb vc, val s b = .ok vb → val s c = .ok vc → s.pc.toNat + 4 ≤ s.L.toNat →
    exec (.eq (.register d) b c) s = .next ((s.writeReg d (if vb = vc then 1 else 0)).advance 4)) ∧
  (∀ (s : State) d b c vb vc, val s b = .ok vb → val s c = .ok vc → s.pc.toNat ≤ 32764 →
    s.L.toNat < s.pc.toNat + 4 →
    Overruns (.eq (.register d) b c) s ((s.writeReg d (if vb = vc then 1 else 0)).advance 4))

/-- R121. -/
def Obligations.GtRule : Prop :=
  SlotsDVV 5 .gt ∧
  (∀ (s : State) d b c vb vc, val s b = .ok vb → val s c = .ok vc → s.pc.toNat + 4 ≤ s.L.toNat →
    exec (.gt (.register d) b c) s = .next ((s.writeReg d (if vb.toNat > vc.toNat then 1 else 0)).advance 4)) ∧
  (∀ (s : State) d b c vb vc, val s b = .ok vb → val s c = .ok vc → s.pc.toNat ≤ 32764 →
    s.L.toNat < s.pc.toNat + 4 →
    Overruns (.gt (.register d) b c) s ((s.writeReg d (if vb.toNat > vc.toNat then 1 else 0)).advance 4))

/-- R130. -/
def Obligations.JmpRule : Prop :=
  SlotsV 6 .jmp ∧
  (∀ (s : State) a t, val s a = .ok t → t.toNat ≤ s.L.toNat →
    exec (.jmp a) s = .next { s with pc := t.setWidth 16 }) ∧
  (∀ (s : State) a t, val s a = .ok t → s.L.toNat < t.toNat → Overruns (.jmp a) s { s with pc := t.setWidth 16 })

/-- R131. -/
def Obligations.JtRule : Prop :=
  SlotsVV 7 .jt ∧
  (∀ (s : State) a b v t, val s a = .ok v → val s b = .ok t → v ≠ 0 → t.toNat ≤ s.L.toNat →
    exec (.jt a b) s = .next { s with pc := t.setWidth 16 }) ∧
  (∀ (s : State) a b v t, val s a = .ok v → val s b = .ok t → v ≠ 0 → s.L.toNat < t.toNat →
    Overruns (.jt a b) s { s with pc := t.setWidth 16 }) ∧
  (∀ (s : State) a b t, val s a = .ok 0 → val s b = .ok t → s.pc.toNat + 3 ≤ s.L.toNat →
    exec (.jt a b) s = .next (s.advance 3)) ∧
  (∀ (s : State) a b t, val s a = .ok 0 → val s b = .ok t → s.pc.toNat ≤ 32764 → s.L.toNat < s.pc.toNat + 3 →
    Overruns (.jt a b) s (s.advance 3))

/-- R132. -/
def Obligations.JfRule : Prop :=
  SlotsVV 8 .jf ∧
  (∀ (s : State) a b t, val s a = .ok 0 → val s b = .ok t → t.toNat ≤ s.L.toNat →
    exec (.jf a b) s = .next { s with pc := t.setWidth 16 }) ∧
  (∀ (s : State) a b t, val s a = .ok 0 → val s b = .ok t → s.L.toNat < t.toNat →
    Overruns (.jf a b) s { s with pc := t.setWidth 16 }) ∧
  (∀ (s : State) a b v t, val s a = .ok v → val s b = .ok t → v ≠ 0 → s.pc.toNat + 3 ≤ s.L.toNat →
    exec (.jf a b) s = .next (s.advance 3)) ∧
  (∀ (s : State) a b v t, val s a = .ok v → val s b = .ok t → v ≠ 0 → s.pc.toNat ≤ 32764 →
    s.L.toNat < s.pc.toNat + 3 → Overruns (.jf a b) s (s.advance 3))

/-- R133: the pushed value is `pc + 2`, which after stage 1 fits in an entry. -/
def Obligations.CallRule : Prop :=
  SlotsV 17 .call ∧
  (∀ (s : State) a t, val s a = .ok t → s.sp.toNat = 32768 → FaultsWith (.call a) s .stackOverflow) ∧
  (∀ (s : State) a t, val s a = .ok t → s.sp.toNat < 32768 → s.pc.toNat ≤ 32764 → t.toNat ≤ s.L.toNat →
    ∃ u, exec (.call a) s = .next u ∧ u = { s.pushEntry (BitVec.ofNat 15 (s.pc.toNat + 2)) with pc := t.setWidth 16 } ∧
      u.top.toNat = s.pc.toNat + 2 ∧ u.sp.toNat = s.sp.toNat + 1) ∧
  (∀ (s : State) a t, val s a = .ok t → s.sp.toNat < 32768 → s.pc.toNat ≤ 32764 → s.L.toNat < t.toNat →
    Overruns (.call a) s { s.pushEntry (BitVec.ofNat 15 (s.pc.toNat + 2)) with pc := t.setWidth 16 })

/-- R134. -/
def Obligations.RetRule : Prop :=
  encode .ret = [18] ∧
  (∀ s : State, s.sp = 0 → FaultsWith .ret s .stackUnderflow) ∧
  (∀ (s : State) t, s.sp ≠ 0 → StackStore.read s.stk (s.sp.toNat - 1) = t → t.toNat ≤ s.L.toNat →
    exec .ret s = .next { s with sp := s.sp - 1, pc := t.setWidth 16 }) ∧
  (∀ (s : State) t, s.sp ≠ 0 → StackStore.read s.stk (s.sp.toNat - 1) = t → s.L.toNat < t.toNat →
    Overruns .ret s { s with sp := s.sp - 1, pc := t.setWidth 16 })

/-- R151. -/
def Obligations.AddRule : Prop :=
  SlotsDVV 9 .add ∧
  (∀ (s : State) d b c vb vc, val s b = .ok vb → val s c = .ok vc → s.pc.toNat + 4 ≤ s.L.toNat →
    ∃ r : Word, r.toNat = (vb.toNat + vc.toNat) % 32768 ∧
      exec (.add (.register d) b c) s = .next ((s.writeReg d r).advance 4)) ∧
  (∀ (s : State) d b c vb vc, val s b = .ok vb → val s c = .ok vc → s.pc.toNat ≤ 32764 →
    s.L.toNat < s.pc.toNat + 4 →
    ∃ r : Word, r.toNat = (vb.toNat + vc.toNat) % 32768 ∧
      Overruns (.add (.register d) b c) s ((s.writeReg d r).advance 4))

/-- R152. -/
def Obligations.MultRule : Prop :=
  SlotsDVV 10 .mult ∧
  (∀ (s : State) d b c vb vc, val s b = .ok vb → val s c = .ok vc → s.pc.toNat + 4 ≤ s.L.toNat →
    ∃ r : Word, r.toNat = vb.toNat * vc.toNat % 32768 ∧
      exec (.mult (.register d) b c) s = .next ((s.writeReg d r).advance 4)) ∧
  (∀ (s : State) d b c vb vc, val s b = .ok vb → val s c = .ok vc → s.pc.toNat ≤ 32764 →
    s.L.toNat < s.pc.toNat + 4 →
    ∃ r : Word, r.toNat = vb.toNat * vc.toNat % 32768 ∧
      Overruns (.mult (.register d) b c) s ((s.writeReg d r).advance 4))

/-- R153 and R198. -/
def Obligations.ModRule : Prop :=
  SlotsDVV 11 .mod ∧
  (∀ (s : State) d b c vb, val s b = .ok vb → val s c = .ok 0 → FaultsWith (.mod (.register d) b c) s .divideByZero) ∧
  (∀ (s : State) d b c vb vc, val s b = .ok vb → val s c = .ok vc → vc ≠ 0 → s.pc.toNat + 4 ≤ s.L.toNat →
    ∃ r : Word, r.toNat = vb.toNat % vc.toNat ∧
      exec (.mod (.register d) b c) s = .next ((s.writeReg d r).advance 4)) ∧
  (∀ (s : State) d b c vb vc, val s b = .ok vb → val s c = .ok vc → vc ≠ 0 → s.pc.toNat ≤ 32764 →
    s.L.toNat < s.pc.toNat + 4 →
    ∃ r : Word, r.toNat = vb.toNat % vc.toNat ∧
      Overruns (.mod (.register d) b c) s ((s.writeReg d r).advance 4))

/-- R154. -/
def Obligations.AndRule : Prop :=
  SlotsDVV 12 .and ∧
  (∀ (s : State) d b c vb vc, val s b = .ok vb → val s c = .ok vc → s.pc.toNat + 4 ≤ s.L.toNat →
    exec (.and (.register d) b c) s = .next ((s.writeReg d (vb &&& vc)).advance 4)) ∧
  (∀ (s : State) d b c vb vc, val s b = .ok vb → val s c = .ok vc → s.pc.toNat ≤ 32764 →
    s.L.toNat < s.pc.toNat + 4 → Overruns (.and (.register d) b c) s ((s.writeReg d (vb &&& vc)).advance 4))

/-- R155. -/
def Obligations.OrRule : Prop :=
  SlotsDVV 13 .or ∧
  (∀ (s : State) d b c vb vc, val s b = .ok vb → val s c = .ok vc → s.pc.toNat + 4 ≤ s.L.toNat →
    exec (.or (.register d) b c) s = .next ((s.writeReg d (vb ||| vc)).advance 4)) ∧
  (∀ (s : State) d b c vb vc, val s b = .ok vb → val s c = .ok vc → s.pc.toNat ≤ 32764 →
    s.L.toNat < s.pc.toNat + 4 → Overruns (.or (.register d) b c) s ((s.writeReg d (vb ||| vc)).advance 4))

/-- R156: the complement, which is 32767 less the value. -/
def Obligations.NotRule : Prop :=
  SlotsDV 14 .not ∧
  (∀ (s : State) d b vb, val s b = .ok vb → s.pc.toNat + 3 ≤ s.L.toNat →
    ∃ r : Word, r = ~~~vb ∧ r.toNat = 32767 - vb.toNat ∧
      exec (.not (.register d) b) s = .next ((s.writeReg d r).advance 3)) ∧
  (∀ (s : State) d b vb, val s b = .ok vb → s.pc.toNat ≤ 32764 → s.L.toNat < s.pc.toNat + 3 →
    Overruns (.not (.register d) b) s ((s.writeReg d (~~~vb)).advance 3))

/-- R170 and R199. -/
def Obligations.RmemRule : Prop :=
  SlotsDV 15 .rmem ∧
  (∀ (s : State) d b addr, val s b = .ok addr → 32768 ≤ (s.memRead addr).toNat →
    FaultsWith (.rmem (.register d) b) s .invalidMemoryValue) ∧
  (∀ (s : State) d b addr, val s b = .ok addr → (s.memRead addr).toNat < 32768 → s.pc.toNat + 3 ≤ s.L.toNat →
    ∃ r : Word, r.toNat = (s.memRead addr).toNat ∧
      exec (.rmem (.register d) b) s = .next ((s.writeReg d r).advance 3)) ∧
  (∀ (s : State) d b addr, val s b = .ok addr → (s.memRead addr).toNat < 32768 → s.pc.toNat ≤ 32764 →
    s.L.toNat < s.pc.toNat + 3 →
    ∃ r : Word, r.toNat = (s.memRead addr).toNat ∧
      Overruns (.rmem (.register d) b) s ((s.writeReg d r).advance 3))

/-- R171: the cell then reads as the value, with bit 15 clear, and `L` stays. -/
def Obligations.WmemRule : Prop :=
  SlotsVV 16 .wmem ∧
  (∀ (s : State) a b addr v, val s a = .ok addr → val s b = .ok v → s.pc.toNat + 3 ≤ s.L.toNat →
    ∃ t, exec (.wmem a b) s = .next t ∧ t = (s.memWrite addr (v.setWidth 16)).advance 3 ∧
      t.memRead addr = v.setWidth 16 ∧ (t.memRead addr).getLsbD 15 = false ∧ t.L = s.L) ∧
  (∀ (s : State) a b addr v, val s a = .ok addr → val s b = .ok v → s.pc.toNat ≤ 32764 →
    s.L.toNat < s.pc.toNat + 3 → Overruns (.wmem a b) s ((s.memWrite addr (v.setWidth 16)).advance 3))

/-- R182: the low byte is output if the sink accepts it. While it does not, there is no step, so nothing changes (R180,
R213, U9); that the absence of a step is a fault of its own name is the model's choice (log entry 4). -/
def Obligations.OutRule : Prop :=
  SlotsV 19 .out ∧
  (∀ (s : State) a v, val s a = .ok v → s.sinkReady = true → s.pc.toNat + 2 ≤ s.L.toNat →
    ∃ y : Byte, y.toNat = v.toNat % 256 ∧
      exec (.out a) s = .next ({ s with output := s.output ++ [y] }.advance 2)) ∧
  (∀ (s : State) a v, val s a = .ok v → s.sinkReady = true → s.pc.toNat ≤ 32764 → s.L.toNat < s.pc.toNat + 2 →
    ∃ y : Byte, y.toNat = v.toNat % 256 ∧
      Overruns (.out a) s ({ s with output := s.output ++ [y] }.advance 2)) ∧
  (∀ (s : State) a v, val s a = .ok v → s.sinkReady = false → exec (.out a) s = .fault .waitingForHost)

/-- R183 and R200: the next byte of the stream, zero-extended; InputExhausted at its end. While neither has come,
there is no step, so nothing changes (R181, R213, U9); that the absence of a step is a fault of its own name is the
model's choice (log entry 4). -/
def Obligations.InRule : Prop :=
  SlotsD 20 .inp ∧
  (∀ (s : State) d, s.input.length ≤ s.inputPos → s.inputEnded = true →
    FaultsWith (.inp (.register d)) s .inputExhausted) ∧
  (∀ (s : State) d (y : Byte), s.input[s.inputPos]? = some y → s.pc.toNat + 2 ≤ s.L.toNat →
    ∃ r : Word, r.toNat = y.toNat ∧
      exec (.inp (.register d)) s = .next (({ s with inputPos := s.inputPos + 1 }.writeReg d r).advance 2)) ∧
  (∀ (s : State) d (y : Byte), s.input[s.inputPos]? = some y → s.pc.toNat ≤ 32764 → s.L.toNat < s.pc.toNat + 2 →
    ∃ r : Word, r.toNat = y.toNat ∧
      Overruns (.inp (.register d)) s (({ s with inputPos := s.inputPos + 1 }.writeReg d r).advance 2)) ∧
  (∀ (s : State) d, s.input.length ≤ s.inputPos → s.inputEnded = false →
    exec (.inp (.register d)) s = .fault .waitingForHost)

/-! ### Frames -/

/-- What set, eq, gt, add, mult, mod, and, or, not and rmem leave unchanged: every register but the one slot `a`
names, all of memory, the stack, the host channel, `L`, and, unless they fault, the status and the fault record. They
store nothing. -/
def Obligations.RegisterOpsFrame : Prop :=
  ∀ (i : Instr) (a b c : Operand) (s t : State),
    (i = .set a b ∨ i = .eq a b c ∨ i = .gt a b c ∨ i = .add a b c ∨ i = .mult a b c ∨ i = .mod a b c ∨
      i = .and a b c ∨ i = .or a b c ∨ i = .not a b ∨ i = .rmem a b) →
    exec i s = .next t →
      (∀ j, dst a ≠ .ok j → t.readReg j = s.readReg j) ∧ SameMemory s t ∧ SameStack s t ∧ SameLaunch s t ∧
      SameStreams s t ∧ StatusKeptOrFaulted i s t

/-- What halt, noop, jmp, jt and jf leave unchanged: everything but `pc`, the status that halt writes, and the status
and fault record of a fault. They store nothing. -/
def Obligations.ControlOpsFrame : Prop :=
  ∀ (i : Instr) (a b : Operand) (s t : State),
    (i = .halt ∨ i = .noop ∨ i = .jmp a ∨ i = .jt a b ∨ i = .jf a b) → exec i s = .next t →
      SameRegs s t ∧ SameMemory s t ∧ SameStack s t ∧ SameLaunch s t ∧ SameStreams s t ∧
      (i ≠ .halt → StatusKeptOrFaulted i s t) ∧
      (i = .halt → t.cause = s.cause ∧ t.faultPc = s.faultPc ∧ t.faultOp = s.faultOp ∧ t.pc = s.pc)

/-- What push, call, pop and ret leave unchanged: push and call every stack entry but the one at `sp`, ret and pop
every entry; pop every register but the one its slot names, the others every register; all of memory, the host
channel, `L`; and, unless they fault, the status and the fault record. `sp` moves by one, or stays where they fault
before they commit. The stack is not in the Address Space (R28), so none of them stores to memory. -/
def Obligations.StackOpsFrame : Prop :=
  (∀ (i : Instr) (a : Operand) (s t : State), i = .push a ∨ i = .call a → exec i s = .next t →
    SameRegs s t ∧ SameMemory s t ∧ SameLaunch s t ∧ SameStreams s t ∧ StatusKeptOrFaulted i s t ∧
    (∀ k, k ≠ s.sp.toNat → StackStore.read t.stk k = StackStore.read s.stk k) ∧
    (t.sp = s.sp + 1 ∨ SameStack s t ∧ t.pc = s.pc ∧ t.status = .faulted)) ∧
  (∀ (i : Instr) (a : Operand) (s t : State), i = .pop a ∨ i = .ret → exec i s = .next t →
    (∀ j, i = .ret ∨ dst a ≠ .ok j → t.readReg j = s.readReg j) ∧ SameMemory s t ∧ SameLaunch s t ∧
    SameStreams s t ∧ StatusKeptOrFaulted i s t ∧
    (∀ k, StackStore.read t.stk k = StackStore.read s.stk k) ∧
    (t.sp = s.sp - 1 ∨ t.sp = s.sp ∧ SameRegs s t ∧ t.pc = s.pc ∧ t.status = .faulted))

/-- What wmem leaves unchanged: every register, the stack, the host channel, `L`, and every byte of memory outside the
cell whose address slot `a` gives (all of memory where slot `a` gives none); and, unless it faults, the status and the
fault record. -/
def Obligations.WmemFrame : Prop :=
  ∀ (a b : Operand) (s t : State), exec (.wmem a b) s = .next t →
    SameRegs s t ∧ SameStack s t ∧ SameLaunch s t ∧ SameStreams s t ∧ StatusKeptOrFaulted (.wmem a b) s t ∧
    (∀ addr k, val s a = .ok addr → k ≠ 2 * addr.toNat → k ≠ 2 * addr.toNat + 1 →
      t.mem.readByte k = s.mem.readByte k) ∧
    (∀ addr addr', val s a = .ok addr → addr' ≠ addr → t.memRead addr' = s.memRead addr') ∧
    (∀ e, val s a = .error e → SameMemory s t)

/-- What out and in leave unchanged: out every register, in every register but the one its slot names; both all of
memory, the stack, `L`, and what the host offers; out the input position, in the output; out adds at most one byte to
the output, in takes at most one byte; and, unless they fault, the status and the fault record stay. -/
def Obligations.HostIoFrame : Prop :=
  (∀ (a : Operand) (s t : State), exec (.out a) s = .next t →
    SameRegs s t ∧ SameMemory s t ∧ SameStack s t ∧ SameLaunch s t ∧ t.inputPos = s.inputPos ∧
    StatusKeptOrFaulted (.out a) s t ∧ (t.output = s.output ∨ ∃ y, t.output = s.output ++ [y])) ∧
  (∀ (a : Operand) (s t : State), exec (.inp a) s = .next t →
    (∀ j, dst a ≠ .ok j → t.readReg j = s.readReg j) ∧ SameMemory s t ∧ SameStack s t ∧ SameLaunch s t ∧
    t.output = s.output ∧ StatusKeptOrFaulted (.inp a) s t ∧
    (t.inputPos = s.inputPos ∧ SameRegs s t ∨ t.inputPos = s.inputPos + 1))

/-! ### Rules about the whole machine -/

/-- R22: a value slot can read every register; only the instructions with a destination slot write one (the list of R22
is that of `Instr.destination`), each only the register that slot names; a step that runs no instruction writes none. A
register reads as the last value written to it, whichever Word that is, and a write leaves the other seven alone. -/
def Obligations.OnlyDestinationsAreWritten : Prop :=
  (∀ (s : State) (j : RegIdx), val s (.register j) = .ok (s.readReg j)) ∧
  (∀ (s : State) (d : RegIdx) (v : Word), (s.writeReg d v).readReg d = v ∧
    ∀ j, j ≠ d → (s.writeReg d v).readReg j = s.readReg j) ∧
  (∀ (s t : State) (i : Instr) (j : RegIdx), exec i s = .next t → t.readReg j ≠ s.readReg j →
    i.destination = some (.register j)) ∧
  (∀ s t : State, s.Ready → step s = .next t → (∀ i, s.fetch ≠ .instr i) → SameRegs s t)

/-- R66: no step makes a cell with bit 15 set: one that has it after a step held the same value before. -/
def Obligations.NoStepSetsBit15OfACell : Prop :=
  ∀ (s t : State) (addr : Word), step s = .next t → (t.memRead addr).getLsbD 15 = true →
    t.memRead addr = s.memRead addr

/-- A read of a cell returns the last value written to it, a write leaves every other cell alone, and a write keeps
the canonical form. The first two are R51, R55 and R59; the canonical form is the model's own (log entry 6). -/
def Obligations.ReadReturnsLastWrite : Prop :=
  ∀ (s : State) (addr : Word) (v : Field),
    (s.memWrite addr v).memRead addr = v ∧
    (∀ addr', addr' ≠ addr → (s.memWrite addr v).memRead addr' = s.memRead addr') ∧
    (s.mem.wf = true → (s.memWrite addr v).mem.wf = true)

/-- Memories in canonical form that read the same at every byte are the same data (log entry 6). -/
def Obligations.CanonicalMemoriesAreEqual : Prop :=
  ∀ m m' : Memory, m.wf = true → m'.wf = true → (∀ k, m.readByte k = m'.readByte k) → m = m'

/-- A store by wmem is seen by every later fetch of that cell, and the words of the running step are those fetched
before it (R63, R225). -/
def Obligations.StoresAreSeenByTheNextFetch : Prop :=
  ∀ (s t : State) (a b : Operand) (addr v : Word), s.Ready → s.fetch = .instr (.wmem a b) →
    val s a = .ok addr → val s b = .ok v → step s = .next t →
    exec (.wmem a b) s = .next t ∧
    ∀ k, t.slot k = if BitVec.ofNat 15 (t.pc.toNat + k) = addr then v.setWidth 16
      else s.memRead (BitVec.ofNat 15 (t.pc.toNat + k))

/-- R30: the stack controller. Push faults on a full stack, Pop on an empty one, and a Pop after a Push returns what
was pushed and leaves the live entries as they were before. -/
def Obligations.StackIsLastInFirstOut : Prop :=
  (∀ (s : State) v, s.sp.toNat = 32768 → s.push v = .error .stackOverflow) ∧
  (∀ s : State, s.sp.toNat = 0 → s.pop = .error .stackUnderflow) ∧
  (∀ (s : State) v, s.sp.toNat < 32768 → ∃ t, s.push v = .ok t ∧ t.sp.toNat = s.sp.toNat + 1 ∧
    StackStore.read t.stk s.sp.toNat = v ∧
    ∃ u, t.pop = .ok (v, u) ∧ u.sp = s.sp ∧
      ∀ k, k < s.sp.toNat → StackStore.read u.stk k = StackStore.read s.stk k) ∧
  (∀ s : State, s.sp.toNat ≠ 0 →
    ∃ u, s.pop = .ok (StackStore.read s.stk (s.sp.toNat - 1), u) ∧ u.sp.toNat = s.sp.toNat - 1 ∧ u.stk = s.stk)

/-- A ret run right after a call returns to the word after the call, with the stack depth and the live entries of
before (R133, R134). -/
def Obligations.RetAfterCallReturns : Prop :=
  ∀ (s t : State) (a : Operand), s.pc.toNat ≤ 32764 → s.pc.toNat + 2 ≤ s.L.toNat → s.sp.toNat < 32768 →
    s.status = .running → exec (.call a) s = .next t → t.status = .running →
    ∃ u, exec .ret t = .next u ∧ u.status = .running ∧ u.pc.toNat = s.pc.toNat + 2 ∧ u.sp = s.sp ∧
      ∀ k, k < s.sp.toNat → StackStore.read u.stk k = StackStore.read s.stk k

/-! ### Reset, boot and the environment -/

/-- R38 and R65: what a boot leaves, with any image of at most 32768 words, whatever the machine was before. -/
def Obligations.BootGivesResetState : Prop :=
  ∀ (l : Launch) (s : State) (bytes : List Byte) (ws : List Field),
    l.image = some bytes → imageWords bytes = some ws → ws.length ≤ 32768 →
    ∃ t, boot l s = (none, t) ∧ (∀ i, t.readReg i = 0) ∧ t.sp = 0 ∧ t.pc = 0 ∧ t.status = .running ∧ t.cause = .none ∧
      t.faultPc = 0 ∧ t.faultOp = 0 ∧ t.L.toNat = ws.length ∧ t.resetAsserted = false ∧
      (∀ addr : Word, t.memRead addr = ws.getD addr.toNat 0) ∧
      t.input = l.input ∧ t.inputPos = 0 ∧ t.inputEnded = l.inputEnded ∧ t.output = [] ∧ t.sinkReady = l.sinkReady

/-- R53: the words of an image, low byte first. -/
def Obligations.ImageBytesAreLittleEndian : Prop :=
  ∀ bytes : List Byte,
    (bytes.length % 2 = 1 → imageWords bytes = none) ∧
    (bytes.length % 2 = 0 → ∃ ws, imageWords bytes = some ws ∧ bytes.length = 2 * ws.length ∧
      ∀ k, k < ws.length → (ws.getD k 0).extractLsb' 0 8 = bytes.getD (2 * k) 0 ∧
        (ws.getD k 0).extractLsb' 8 8 = bytes.getD (2 * k + 1) 0)

/-- R206: an image that cannot be read, has an odd number of bytes, or holds more than 32768 words is a LoadError, and
the CORE stays in reset, where it takes no step. The model's choices in it: that the absence of a step is the named
fault `coreInReset` (log entry 5), and that an unreadable image is `none` (log entry 14). -/
def Obligations.LoadErrorKeepsCoreInReset : Prop :=
  ∀ (l : Launch) (s : State),
    (l.image = none ∨ (∃ bytes, l.image = some bytes ∧ (bytes.length % 2 = 1 ∨ 65536 < bytes.length))) →
    ∃ e t, boot l s = (some e, t) ∧ step t = .fault .coreInReset

/-- R220: no step while reset is asserted, in any state; on release the CORE state of R38 and memory as it was; and
nothing else leaves HALTED or FAULTED. The model's choices in it: that the absence of a step is the named fault
`coreInReset` (log entry 5), and that the level of the reset input is a field of the state, so that asserting reset
keeps `status` until the release (log entry 9). -/
def Obligations.ResetRule : Prop :=
  (∀ s : State, step (assertReset s) = .fault .coreInReset) ∧
  (∀ s : State, ∃ t, releaseReset s = t ∧ (∀ i, t.readReg i = 0) ∧ t.sp = 0 ∧ t.pc = 0 ∧ t.status = .running ∧
    t.cause = .none ∧ t.faultPc = 0 ∧ t.faultOp = 0 ∧ t.L = s.L ∧ t.mem = s.mem ∧ t.resetAsserted = false) ∧
  (∀ s t : State, s.status ≠ .running → step s ≠ .next t) ∧
  (∀ (s : State) b r, (deliverByte b s).status = s.status ∧ (endInput s).status = s.status ∧
    (setSinkReady r s).status = s.status ∧ (assertReset s).status = s.status)

/-- The host changes neither CORE state nor memory, whatever it does with its channel (R184). -/
def Obligations.HostLeavesCoreAlone : Prop :=
  ∀ (s : State) (b : Byte) (r : Bool),
    SameCore s (deliverByte b s) ∧ SameCore s (endInput s) ∧ SameCore s (setSinkReady r s)

/-- An `in` that waits has no step, and once the host delivers a byte the same instruction takes it, or raises
InputExhausted once the host reports the end; the same for `out` and the sink (R180, R181, R184, R213; that the absence
of a step is a fault of its own name is log entry 4). -/
def Obligations.HostEndsAWait : Prop :=
  (∀ (s : State) d (y : Byte), s.inputPos = s.input.length → s.inputEnded = false → s.pc.toNat + 2 ≤ s.L.toNat →
    exec (.inp (.register d)) s = .fault .waitingForHost ∧
    FaultsWith (.inp (.register d)) (endInput s) .inputExhausted ∧
    ∃ t, exec (.inp (.register d)) (deliverByte y s) = .next t ∧ t.readReg d = y.setWidth 15 ∧
      t.inputPos = s.inputPos + 1 ∧ t.pc.toNat = s.pc.toNat + 2 ∧ t.status = s.status) ∧
  (∀ (s : State) a v, val s a = .ok v → s.sinkReady = false → s.pc.toNat + 2 ≤ s.L.toNat →
    exec (.out a) s = .fault .waitingForHost ∧
    ∃ t, exec (.out a) (setSinkReady true s) = .next t ∧ t.output = s.output ++ [v.setWidth 8] ∧
      t.pc.toNat = s.pc.toNat + 2 ∧ t.status = s.status)

/-- R223: an empty image boots, and the first step halts at address 0. -/
def Obligations.EmptyImageHalts : Prop :=
  ∀ (l : Launch) (s t : State), l.image = some [] → boot l s = (none, t) →
    ∃ u, step t = .next u ∧ u.status = .halted ∧ u.pc = 0

/-! ### The invariant -/

/-- The state after reset satisfies the invariant. It is the state R38 gives; its `L`, its host channel and its empty
storage are the model's choices (log entries 1, 2 and 3), and the invariant holds whatever a stack entry that nothing
has written reads as. -/
def Obligations.ResetSatisfiesInvariant : Prop := State.reset.Inv

/-- Every step from a state that satisfies the invariant leads to one that does. The invariant is R39's with the range
of `pc` and the fault record, and with the model's own: the canonical forms (log entry 6) and that every live stack
entry has been written (log entry 2). -/
def Obligations.StepKeepsInvariant : Prop := ∀ s t : State, s.Inv → step s = .next t → t.Inv

/-- R39: in every state a run can reach, with any image, any host and any resets, the invariant holds, and with it,
while RUNNING, each invariant of R39. The invariant holds more than R39: the canonical forms of storage (log entry 6)
and that every live stack entry has been written (log entry 2) are the model's. -/
def Obligations.ReachableStatesAreSafe : Prop :=
  ∀ s : State, Reachable s →
    s.Inv ∧
    (s.status = .running →
      (∀ i, (s.readReg i).toNat ≤ 32767) ∧ (∀ k, k < s.sp.toNat → (StackStore.read s.stk k).toNat ≤ 32767) ∧
      s.sp.toNat ≤ 32768 ∧ s.pc.toNat ≤ s.L.toNat ∧ s.L.toNat ≤ 32768)
end

