-- ==== Sys2Proof/Laws/Decode.lean ====
section
/-! SUPPORT. Field classification and its inverse (`30_encoding.md` R73). -/

namespace Sys2Proof

/-- A field up to 32767 is a literal (R73). -/
theorem classify_of_le {f : Field} (h : f.toNat ≤ 32767) : classify f = .literal (f.setWidth 15) := by
  rw [classify, if_pos h]

/-- A field 32768 + i is register i (R73). -/
theorem classify_of_register {f : Field} {i : RegIdx} (h : f.toNat = 32768 + i.val) : classify f = .register i := by
  have := i.isLt
  rw [classify, if_neg (by omega), dif_pos (by omega)]
  simp only [Operand.register.injEq, Fin.ext_iff]
  omega

/-- A field from 32776 up is invalid (R73). -/
theorem classify_of_ge {f : Field} (h : 32776 ≤ f.toNat) : classify f = .invalid f := by
  rw [classify, if_neg (by omega), dif_neg (by omega)]

/-- Every field falls into exactly one class (R73). -/
theorem field_cases (f : Field) :
    f.toNat ≤ 32767 ∨ (∃ i : RegIdx, f.toNat = 32768 + i.val) ∨ 32776 ≤ f.toNat := by
  by_cases h : f.toNat ≤ 32767
  · exact .inl h
  · by_cases h' : f.toNat ≤ 32775
    · exact .inr (.inl ⟨⟨f.toNat - 32768, by omega⟩, by show f.toNat = 32768 + (f.toNat - 32768); omega⟩)
    · exact .inr (.inr (by omega))

/-- Classification gives well-formed operands. -/
theorem classify_wf (f : Field) : (classify f).wf = true := by
  rcases field_cases f with h | ⟨i, h⟩ | h
  · rw [classify_of_le h]; rfl
  · rw [classify_of_register h]; rfl
  · rw [classify_of_ge h]; simpa [Operand.wf] using h

/-- The field of a classified field is that field. -/
theorem field_classify (f : Field) : (classify f).field = f := by
  rcases field_cases f with h | ⟨i, h⟩ | h
  · rw [classify_of_le h]
    apply BitVec.eq_of_toNat_eq
    simp [Operand.field]; omega
  · rw [classify_of_register h]
    apply BitVec.eq_of_toNat_eq
    have := i.isLt
    simp [Operand.field]; omega
  · rw [classify_of_ge h]; rfl

/-- A well-formed operand is what its field is classified as. -/
theorem classify_field {o : Operand} (h : o.wf = true) : classify o.field = o := by
  cases o with
  | literal w =>
    have := w.isLt
    have hw : (Operand.literal w).field.toNat = w.toNat := by simp [Operand.field]; omega
    rw [classify_of_le (by omega)]
    congr 1
    apply BitVec.eq_of_toNat_eq
    simp [Operand.field]
  | register i =>
    have := i.isLt
    exact classify_of_register (by simp [Operand.field]; omega)
  | invalid f => exact classify_of_ge (by simpa [Operand.wf, Operand.field] using h)

end Sys2Proof
end

