-- ==== Sys2Proof/Laws/State.lean ====
section
/-! SUPPORT. One lemma per field per update of State, so that no later proof unfolds a record update. -/

namespace Sys2Proof.Machine

/-! ### `State.writeReg` -/

section
variable (s : State) (i : RegIdx) (v : Word)

@[simp] theorem State.writeReg_regs : (s.writeReg i v).regs = s.regs.set i v := rfl
@[simp] theorem State.writeReg_pc : (s.writeReg i v).pc = s.pc := rfl
@[simp] theorem State.writeReg_stk : (s.writeReg i v).stk = s.stk := rfl
@[simp] theorem State.writeReg_sp : (s.writeReg i v).sp = s.sp := rfl
@[simp] theorem State.writeReg_L : (s.writeReg i v).L = s.L := rfl
@[simp] theorem State.writeReg_status : (s.writeReg i v).status = s.status := rfl
@[simp] theorem State.writeReg_cause : (s.writeReg i v).cause = s.cause := rfl
@[simp] theorem State.writeReg_faultPc : (s.writeReg i v).faultPc = s.faultPc := rfl
@[simp] theorem State.writeReg_faultOp : (s.writeReg i v).faultOp = s.faultOp := rfl
@[simp] theorem State.writeReg_mem : (s.writeReg i v).mem = s.mem := rfl
@[simp] theorem State.writeReg_input : (s.writeReg i v).input = s.input := rfl
@[simp] theorem State.writeReg_inputPos : (s.writeReg i v).inputPos = s.inputPos := rfl
@[simp] theorem State.writeReg_inputEnded : (s.writeReg i v).inputEnded = s.inputEnded := rfl
@[simp] theorem State.writeReg_output : (s.writeReg i v).output = s.output := rfl
@[simp] theorem State.writeReg_sinkReady : (s.writeReg i v).sinkReady = s.sinkReady := rfl
@[simp] theorem State.writeReg_resetAsserted : (s.writeReg i v).resetAsserted = s.resetAsserted := rfl

end

/-! ### `State.jump` -/

section
variable (s : State) (a : Word)

@[simp] theorem State.jump_regs : (s.jump a).regs = s.regs := rfl
@[simp] theorem State.jump_pc : (s.jump a).pc = a.setWidth 16 := rfl
@[simp] theorem State.jump_stk : (s.jump a).stk = s.stk := rfl
@[simp] theorem State.jump_sp : (s.jump a).sp = s.sp := rfl
@[simp] theorem State.jump_L : (s.jump a).L = s.L := rfl
@[simp] theorem State.jump_status : (s.jump a).status = s.status := rfl
@[simp] theorem State.jump_cause : (s.jump a).cause = s.cause := rfl
@[simp] theorem State.jump_faultPc : (s.jump a).faultPc = s.faultPc := rfl
@[simp] theorem State.jump_faultOp : (s.jump a).faultOp = s.faultOp := rfl
@[simp] theorem State.jump_mem : (s.jump a).mem = s.mem := rfl
@[simp] theorem State.jump_input : (s.jump a).input = s.input := rfl
@[simp] theorem State.jump_inputPos : (s.jump a).inputPos = s.inputPos := rfl
@[simp] theorem State.jump_inputEnded : (s.jump a).inputEnded = s.inputEnded := rfl
@[simp] theorem State.jump_output : (s.jump a).output = s.output := rfl
@[simp] theorem State.jump_sinkReady : (s.jump a).sinkReady = s.sinkReady := rfl
@[simp] theorem State.jump_resetAsserted : (s.jump a).resetAsserted = s.resetAsserted := rfl

end

/-! ### `State.advance` -/

section
variable (s : State) (n : Nat)

@[simp] theorem State.advance_regs : (s.advance n).regs = s.regs := rfl
@[simp] theorem State.advance_pc : (s.advance n).pc = s.pc + BitVec.ofNat 16 n := rfl
@[simp] theorem State.advance_stk : (s.advance n).stk = s.stk := rfl
@[simp] theorem State.advance_sp : (s.advance n).sp = s.sp := rfl
@[simp] theorem State.advance_L : (s.advance n).L = s.L := rfl
@[simp] theorem State.advance_status : (s.advance n).status = s.status := rfl
@[simp] theorem State.advance_cause : (s.advance n).cause = s.cause := rfl
@[simp] theorem State.advance_faultPc : (s.advance n).faultPc = s.faultPc := rfl
@[simp] theorem State.advance_faultOp : (s.advance n).faultOp = s.faultOp := rfl
@[simp] theorem State.advance_mem : (s.advance n).mem = s.mem := rfl
@[simp] theorem State.advance_input : (s.advance n).input = s.input := rfl
@[simp] theorem State.advance_inputPos : (s.advance n).inputPos = s.inputPos := rfl
@[simp] theorem State.advance_inputEnded : (s.advance n).inputEnded = s.inputEnded := rfl
@[simp] theorem State.advance_output : (s.advance n).output = s.output := rfl
@[simp] theorem State.advance_sinkReady : (s.advance n).sinkReady = s.sinkReady := rfl
@[simp] theorem State.advance_resetAsserted : (s.advance n).resetAsserted = s.resetAsserted := rfl

end

/-! ### `State.pushEntry` -/

section
variable (s : State) (v : Word)

@[simp] theorem State.pushEntry_regs : (s.pushEntry v).regs = s.regs := rfl
@[simp] theorem State.pushEntry_pc : (s.pushEntry v).pc = s.pc := rfl
@[simp] theorem State.pushEntry_stk : (s.pushEntry v).stk = Store.put s.sp.toNat v s.stk := rfl
@[simp] theorem State.pushEntry_sp : (s.pushEntry v).sp = s.sp + 1 := rfl
@[simp] theorem State.pushEntry_L : (s.pushEntry v).L = s.L := rfl
@[simp] theorem State.pushEntry_status : (s.pushEntry v).status = s.status := rfl
@[simp] theorem State.pushEntry_cause : (s.pushEntry v).cause = s.cause := rfl
@[simp] theorem State.pushEntry_faultPc : (s.pushEntry v).faultPc = s.faultPc := rfl
@[simp] theorem State.pushEntry_faultOp : (s.pushEntry v).faultOp = s.faultOp := rfl
@[simp] theorem State.pushEntry_mem : (s.pushEntry v).mem = s.mem := rfl
@[simp] theorem State.pushEntry_input : (s.pushEntry v).input = s.input := rfl
@[simp] theorem State.pushEntry_inputPos : (s.pushEntry v).inputPos = s.inputPos := rfl
@[simp] theorem State.pushEntry_inputEnded : (s.pushEntry v).inputEnded = s.inputEnded := rfl
@[simp] theorem State.pushEntry_output : (s.pushEntry v).output = s.output := rfl
@[simp] theorem State.pushEntry_sinkReady : (s.pushEntry v).sinkReady = s.sinkReady := rfl
@[simp] theorem State.pushEntry_resetAsserted : (s.pushEntry v).resetAsserted = s.resetAsserted := rfl

end

/-! ### `State.popEntry` -/

section
variable (s : State)

@[simp] theorem State.popEntry_regs : (s.popEntry).regs = s.regs := rfl
@[simp] theorem State.popEntry_pc : (s.popEntry).pc = s.pc := rfl
@[simp] theorem State.popEntry_stk : (s.popEntry).stk = s.stk := rfl
@[simp] theorem State.popEntry_sp : (s.popEntry).sp = s.sp - 1 := rfl
@[simp] theorem State.popEntry_L : (s.popEntry).L = s.L := rfl
@[simp] theorem State.popEntry_status : (s.popEntry).status = s.status := rfl
@[simp] theorem State.popEntry_cause : (s.popEntry).cause = s.cause := rfl
@[simp] theorem State.popEntry_faultPc : (s.popEntry).faultPc = s.faultPc := rfl
@[simp] theorem State.popEntry_faultOp : (s.popEntry).faultOp = s.faultOp := rfl
@[simp] theorem State.popEntry_mem : (s.popEntry).mem = s.mem := rfl
@[simp] theorem State.popEntry_input : (s.popEntry).input = s.input := rfl
@[simp] theorem State.popEntry_inputPos : (s.popEntry).inputPos = s.inputPos := rfl
@[simp] theorem State.popEntry_inputEnded : (s.popEntry).inputEnded = s.inputEnded := rfl
@[simp] theorem State.popEntry_output : (s.popEntry).output = s.output := rfl
@[simp] theorem State.popEntry_sinkReady : (s.popEntry).sinkReady = s.sinkReady := rfl
@[simp] theorem State.popEntry_resetAsserted : (s.popEntry).resetAsserted = s.resetAsserted := rfl

end

/-! ### `State.memWrite` -/

section
variable (s : State) (a : Word) (v : Field)

@[simp] theorem State.memWrite_regs : (s.memWrite a v).regs = s.regs := rfl
@[simp] theorem State.memWrite_pc : (s.memWrite a v).pc = s.pc := rfl
@[simp] theorem State.memWrite_stk : (s.memWrite a v).stk = s.stk := rfl
@[simp] theorem State.memWrite_sp : (s.memWrite a v).sp = s.sp := rfl
@[simp] theorem State.memWrite_L : (s.memWrite a v).L = s.L := rfl
@[simp] theorem State.memWrite_status : (s.memWrite a v).status = s.status := rfl
@[simp] theorem State.memWrite_cause : (s.memWrite a v).cause = s.cause := rfl
@[simp] theorem State.memWrite_faultPc : (s.memWrite a v).faultPc = s.faultPc := rfl
@[simp] theorem State.memWrite_faultOp : (s.memWrite a v).faultOp = s.faultOp := rfl
@[simp] theorem State.memWrite_mem : (s.memWrite a v).mem = s.mem.writeCell a.toNat v := rfl
@[simp] theorem State.memWrite_input : (s.memWrite a v).input = s.input := rfl
@[simp] theorem State.memWrite_inputPos : (s.memWrite a v).inputPos = s.inputPos := rfl
@[simp] theorem State.memWrite_inputEnded : (s.memWrite a v).inputEnded = s.inputEnded := rfl
@[simp] theorem State.memWrite_output : (s.memWrite a v).output = s.output := rfl
@[simp] theorem State.memWrite_sinkReady : (s.memWrite a v).sinkReady = s.sinkReady := rfl
@[simp] theorem State.memWrite_resetAsserted : (s.memWrite a v).resetAsserted = s.resetAsserted := rfl

end

/-! ### `State.takeByte` -/

section
variable (s : State)

@[simp] theorem State.takeByte_regs : (s.takeByte).regs = s.regs := rfl
@[simp] theorem State.takeByte_pc : (s.takeByte).pc = s.pc := rfl
@[simp] theorem State.takeByte_stk : (s.takeByte).stk = s.stk := rfl
@[simp] theorem State.takeByte_sp : (s.takeByte).sp = s.sp := rfl
@[simp] theorem State.takeByte_L : (s.takeByte).L = s.L := rfl
@[simp] theorem State.takeByte_status : (s.takeByte).status = s.status := rfl
@[simp] theorem State.takeByte_cause : (s.takeByte).cause = s.cause := rfl
@[simp] theorem State.takeByte_faultPc : (s.takeByte).faultPc = s.faultPc := rfl
@[simp] theorem State.takeByte_faultOp : (s.takeByte).faultOp = s.faultOp := rfl
@[simp] theorem State.takeByte_mem : (s.takeByte).mem = s.mem := rfl
@[simp] theorem State.takeByte_input : (s.takeByte).input = s.input := rfl
@[simp] theorem State.takeByte_inputPos : (s.takeByte).inputPos = s.inputPos + 1 := rfl
@[simp] theorem State.takeByte_inputEnded : (s.takeByte).inputEnded = s.inputEnded := rfl
@[simp] theorem State.takeByte_output : (s.takeByte).output = s.output := rfl
@[simp] theorem State.takeByte_sinkReady : (s.takeByte).sinkReady = s.sinkReady := rfl
@[simp] theorem State.takeByte_resetAsserted : (s.takeByte).resetAsserted = s.resetAsserted := rfl

end

/-! ### `State.emitByte` -/

section
variable (s : State) (b : Byte)

@[simp] theorem State.emitByte_regs : (s.emitByte b).regs = s.regs := rfl
@[simp] theorem State.emitByte_pc : (s.emitByte b).pc = s.pc := rfl
@[simp] theorem State.emitByte_stk : (s.emitByte b).stk = s.stk := rfl
@[simp] theorem State.emitByte_sp : (s.emitByte b).sp = s.sp := rfl
@[simp] theorem State.emitByte_L : (s.emitByte b).L = s.L := rfl
@[simp] theorem State.emitByte_status : (s.emitByte b).status = s.status := rfl
@[simp] theorem State.emitByte_cause : (s.emitByte b).cause = s.cause := rfl
@[simp] theorem State.emitByte_faultPc : (s.emitByte b).faultPc = s.faultPc := rfl
@[simp] theorem State.emitByte_faultOp : (s.emitByte b).faultOp = s.faultOp := rfl
@[simp] theorem State.emitByte_mem : (s.emitByte b).mem = s.mem := rfl
@[simp] theorem State.emitByte_input : (s.emitByte b).input = s.input := rfl
@[simp] theorem State.emitByte_inputPos : (s.emitByte b).inputPos = s.inputPos := rfl
@[simp] theorem State.emitByte_inputEnded : (s.emitByte b).inputEnded = s.inputEnded := rfl
@[simp] theorem State.emitByte_output : (s.emitByte b).output = s.output ++ [b] := rfl
@[simp] theorem State.emitByte_sinkReady : (s.emitByte b).sinkReady = s.sinkReady := rfl
@[simp] theorem State.emitByte_resetAsserted : (s.emitByte b).resetAsserted = s.resetAsserted := rfl

end

/-! ### `State.haltCore` -/

section
variable (s : State)

@[simp] theorem State.haltCore_regs : (s.haltCore).regs = s.regs := rfl
@[simp] theorem State.haltCore_pc : (s.haltCore).pc = s.pc := rfl
@[simp] theorem State.haltCore_stk : (s.haltCore).stk = s.stk := rfl
@[simp] theorem State.haltCore_sp : (s.haltCore).sp = s.sp := rfl
@[simp] theorem State.haltCore_L : (s.haltCore).L = s.L := rfl
@[simp] theorem State.haltCore_status : (s.haltCore).status = .halted := rfl
@[simp] theorem State.haltCore_cause : (s.haltCore).cause = s.cause := rfl
@[simp] theorem State.haltCore_faultPc : (s.haltCore).faultPc = s.faultPc := rfl
@[simp] theorem State.haltCore_faultOp : (s.haltCore).faultOp = s.faultOp := rfl
@[simp] theorem State.haltCore_mem : (s.haltCore).mem = s.mem := rfl
@[simp] theorem State.haltCore_input : (s.haltCore).input = s.input := rfl
@[simp] theorem State.haltCore_inputPos : (s.haltCore).inputPos = s.inputPos := rfl
@[simp] theorem State.haltCore_inputEnded : (s.haltCore).inputEnded = s.inputEnded := rfl
@[simp] theorem State.haltCore_output : (s.haltCore).output = s.output := rfl
@[simp] theorem State.haltCore_sinkReady : (s.haltCore).sinkReady = s.sinkReady := rfl
@[simp] theorem State.haltCore_resetAsserted : (s.haltCore).resetAsserted = s.resetAsserted := rfl

end

/-! ### `State.enterFault` -/

section
variable (s : State) (k : Cause) (p : BitVec 16) (op : Field)

@[simp] theorem State.enterFault_regs : (s.enterFault k p op).regs = s.regs := rfl
@[simp] theorem State.enterFault_pc : (s.enterFault k p op).pc = s.pc := rfl
@[simp] theorem State.enterFault_stk : (s.enterFault k p op).stk = s.stk := rfl
@[simp] theorem State.enterFault_sp : (s.enterFault k p op).sp = s.sp := rfl
@[simp] theorem State.enterFault_L : (s.enterFault k p op).L = s.L := rfl
@[simp] theorem State.enterFault_status : (s.enterFault k p op).status = .faulted := rfl
@[simp] theorem State.enterFault_cause : (s.enterFault k p op).cause = k := rfl
@[simp] theorem State.enterFault_faultPc : (s.enterFault k p op).faultPc = p := rfl
@[simp] theorem State.enterFault_faultOp : (s.enterFault k p op).faultOp = op := rfl
@[simp] theorem State.enterFault_mem : (s.enterFault k p op).mem = s.mem := rfl
@[simp] theorem State.enterFault_input : (s.enterFault k p op).input = s.input := rfl
@[simp] theorem State.enterFault_inputPos : (s.enterFault k p op).inputPos = s.inputPos := rfl
@[simp] theorem State.enterFault_inputEnded : (s.enterFault k p op).inputEnded = s.inputEnded := rfl
@[simp] theorem State.enterFault_output : (s.enterFault k p op).output = s.output := rfl
@[simp] theorem State.enterFault_sinkReady : (s.enterFault k p op).sinkReady = s.sinkReady := rfl
@[simp] theorem State.enterFault_resetAsserted : (s.enterFault k p op).resetAsserted = s.resetAsserted := rfl

end

end Sys2Proof.Machine
end

