-- ==== Sys2Proof/Laws/Store.lean ====
section
/-! SUPPORT. The laws of sparse storage, of the memory port and of the call stack: a read after a write, what a write
leaves alone, and that the canonical forms are kept. -/

namespace Sys2Proof.Machine

variable {α : Type}

/-! ### Sparse storage -/

theorem Store.find_put_same (k : Nat) (v : α) (m : List (Nat × α)) : Store.find k (Store.put k v m) = some v := by
  induction m with
  | nil => simp [Store.put, Store.find]
  | cons e rest ih =>
    obtain ⟨j, w⟩ := e
    simp only [Store.put]
    split
    · simp [Store.find]
    · split
      · simp [Store.find]
      · simp [Store.find, *]

theorem Store.find_put_ne {k j : Nat} (h : j ≠ k) (v : α) (m : List (Nat × α)) :
    Store.find j (Store.put k v m) = Store.find j m := by
  induction m with
  | nil => simp [Store.put, Store.find, h.symm]
  | cons e rest ih =>
    obtain ⟨l, w⟩ := e
    simp only [Store.put]
    split
    · simp [Store.find, h.symm]
    · split
      · subst_vars; simp [Store.find, h.symm]
      · simp [Store.find, ih]

theorem Store.find_drop_same (k : Nat) (m : List (Nat × α)) : Store.find k (Store.drop k m) = none := by
  induction m with
  | nil => rfl
  | cons e rest ih =>
    obtain ⟨l, w⟩ := e
    simp only [Store.drop]
    split
    · exact ih
    · simp [Store.find, *]

theorem Store.find_drop_ne {k j : Nat} (h : j ≠ k) (m : List (Nat × α)) :
    Store.find j (Store.drop k m) = Store.find j m := by
  induction m with
  | nil => rfl
  | cons e rest ih =>
    obtain ⟨l, w⟩ := e
    simp only [Store.drop]
    split
    · subst_vars; simp [Store.find, h.symm, ih]
    · simp [Store.find, ih]

theorem Store.mem_put {k : Nat} {v : α} {m : List (Nat × α)} {e : Nat × α} (h : e ∈ Store.put k v m) :
    e = (k, v) ∨ e ∈ m := by
  induction m with
  | nil => simpa [Store.put] using h
  | cons f rest ih =>
    obtain ⟨l, w⟩ := f
    simp only [Store.put] at h
    split at h
    · simpa using h
    · split at h
      · rcases List.mem_cons.1 h with h | h
        · exact .inl h
        · exact .inr (List.mem_cons_of_mem _ h)
      · rcases List.mem_cons.1 h with h | h
        · exact .inr (h ▸ List.mem_cons_self)
        · exact (ih h).imp id (List.mem_cons_of_mem _)

theorem Store.mem_drop {k : Nat} {m : List (Nat × α)} {e : Nat × α} (h : e ∈ Store.drop k m) : e ∈ m := by
  induction m with
  | nil => exact h
  | cons f rest ih =>
    obtain ⟨l, w⟩ := f
    simp only [Store.drop] at h
    split at h
    · exact List.mem_cons_of_mem _ (ih h)
    · rcases List.mem_cons.1 h with h | h
      · exact h ▸ List.mem_cons_self
      · exact List.mem_cons_of_mem _ (ih h)

theorem Store.sorted_cons {j : Nat} {w : α} {rest : List (Nat × α)} :
    Store.sorted ((j, w) :: rest) = true ↔ (∀ e ∈ rest, j < e.1) ∧ Store.sorted rest = true := by
  simp [Store.sorted]

theorem Store.sorted_put {k : Nat} {v : α} {m : List (Nat × α)} (h : Store.sorted m = true) :
    Store.sorted (Store.put k v m) = true := by
  induction m with
  | nil => simp [Store.put, Store.sorted]
  | cons f rest ih =>
    obtain ⟨l, w⟩ := f
    obtain ⟨hlt, hs⟩ := Store.sorted_cons.1 h
    simp only [Store.put]
    split
    next hk =>
      refine Store.sorted_cons.2 ⟨fun e he => ?_, h⟩
      rcases List.mem_cons.1 he with rfl | he
      · exact hk
      · exact hk.trans (hlt e he)
    next hk =>
      split
      next hkl => subst hkl; exact Store.sorted_cons.2 ⟨hlt, hs⟩
      next hkl =>
        refine Store.sorted_cons.2 ⟨fun e he => ?_, ih hs⟩
        rcases Store.mem_put he with rfl | he
        · show l < k
          omega
        · exact hlt e he

theorem Store.sorted_drop {k : Nat} {m : List (Nat × α)} (h : Store.sorted m = true) :
    Store.sorted (Store.drop k m) = true := by
  induction m with
  | nil => exact h
  | cons f rest ih =>
    obtain ⟨l, w⟩ := f
    obtain ⟨hlt, hs⟩ := Store.sorted_cons.1 h
    simp only [Store.drop]
    split
    · exact ih hs
    · exact Store.sorted_cons.2 ⟨fun e he => hlt e (Store.mem_drop he), ih hs⟩

/-- A key below every listed key is not listed. -/
theorem Store.find_none_of_lt {k : Nat} {m : List (Nat × α)} (h : ∀ e ∈ m, k < e.1) : Store.find k m = none := by
  induction m with
  | nil => rfl
  | cons f rest ih =>
    obtain ⟨l, w⟩ := f
    have hk : k < l := h _ List.mem_cons_self
    simp [Store.find, Nat.ne_of_gt hk, ih fun e he => h e (List.mem_cons_of_mem _ he)]

/-! ### Bytes and cells of the Address Space -/

theorem Memory.readByte_writeByte_same (m : Memory) (k : Nat) (b : Byte) : (m.writeByte k b).readByte k = b := by
  unfold Memory.readByte Memory.writeByte
  split
  · simp [Store.find_drop_same, *]
  · simp [Store.find_put_same]

theorem Memory.readByte_writeByte_ne (m : Memory) {k j : Nat} (h : j ≠ k) (b : Byte) :
    (m.writeByte k b).readByte j = m.readByte j := by
  unfold Memory.readByte Memory.writeByte
  split
  · rw [Store.find_drop_ne h]
  · rw [Store.find_put_ne h]

theorem Memory.wf_iff {m : Memory} :
    m.wf = true ↔ Store.sorted m = true ∧ ∀ e ∈ m, e.1 < 65536 ∧ e.2 ≠ Memory.unlistedByte := by
  simp [Memory.wf]

theorem Memory.wf_writeByte {m : Memory} {k : Nat} {b : Byte} (h : m.wf = true) (hk : k < 65536) :
    (m.writeByte k b).wf = true := by
  obtain ⟨hs, he⟩ := Memory.wf_iff.1 h
  unfold Memory.writeByte
  split
  · exact Memory.wf_iff.2 ⟨Store.sorted_drop hs, fun e h => he e (Store.mem_drop h)⟩
  next hb =>
    refine Memory.wf_iff.2 ⟨Store.sorted_put hs, fun e h => ?_⟩
    rcases Store.mem_put h with rfl | h
    · exact ⟨hk, hb⟩
    · exact he e h

/-- The low byte of two bytes put together is the second (R53). -/
theorem extract_low_append (hi lo : Byte) : BitVec.extractLsb' 0 8 (hi ++ lo : BitVec (8 + 8)) = lo := by
  ext i h
  simp only [BitVec.getElem_extractLsb', BitVec.getLsbD_append]
  simp [h]

/-- The high byte of two bytes put together is the first (R53). -/
theorem extract_high_append (hi lo : Byte) : BitVec.extractLsb' 8 8 (hi ++ lo : BitVec (8 + 8)) = hi := by
  ext i h
  simp only [BitVec.getElem_extractLsb', BitVec.getLsbD_append]
  simp [h]

/-- A cell write touches the two bytes of its cell and no other. -/
theorem Memory.readByte_writeCell (m : Memory) (k : Nat) (v : Field) (j : Nat) :
    (m.writeCell k v).readByte j =
      if j = 2 * k then v.extractLsb' 0 8 else if j = 2 * k + 1 then v.extractLsb' 8 8 else m.readByte j := by
  unfold Memory.writeCell
  by_cases h1 : j = 2 * k + 1
  · rw [h1, Memory.readByte_writeByte_same, if_neg (by omega), if_pos rfl]
  · rw [Memory.readByte_writeByte_ne _ h1]
    by_cases h0 : j = 2 * k
    · rw [h0, Memory.readByte_writeByte_same, if_pos rfl]
    · rw [Memory.readByte_writeByte_ne _ h0, if_neg h0, if_neg h1]

theorem Memory.readCell_writeCell_same (m : Memory) (k : Nat) (v : Field) : (m.writeCell k v).readCell k = v := by
  simp only [Memory.readCell, Memory.readByte_writeCell]
  rw [if_neg (by omega)]
  simp only [if_true]
  ext i hi
  simp only [BitVec.getElem_append, BitVec.getElem_extractLsb']
  split
  · rw [Nat.zero_add, BitVec.getLsbD_eq_getElem]
  next h => rw [Nat.add_sub_cancel' (by omega), BitVec.getLsbD_eq_getElem]

theorem Memory.readCell_writeCell_ne (m : Memory) {k j : Nat} (h : j ≠ k) (v : Field) :
    (m.writeCell k v).readCell j = m.readCell j := by
  simp only [Memory.readCell, Memory.readByte_writeCell]
  rw [if_neg (by omega), if_neg (by omega), if_neg (by omega), if_neg (by omega)]

theorem Memory.wf_writeCell {m : Memory} {k : Nat} {v : Field} (h : m.wf = true) (hk : k < 32768) :
    (m.writeCell k v).wf = true :=
  Memory.wf_writeByte (Memory.wf_writeByte h (by omega)) (by omega)

/-! ### The memory port on states -/

@[simp] theorem State.memRead_memWrite (s : State) (a b : Word) (v : Field) :
    (s.memWrite a v).memRead b = if b = a then v else s.memRead b := by
  unfold State.memRead
  split
  next h => subst h; simp [Memory.readCell_writeCell_same]
  next h => simp [Memory.readCell_writeCell_ne _ (mt BitVec.eq_of_toNat_eq h)]

/-- What a read gives depends on the memory alone. -/
theorem State.memRead_congr {s t : State} (h : t.mem = s.mem) (a : Word) : t.memRead a = s.memRead a := by
  rw [State.memRead, State.memRead, h]

/-! ### Registers -/

@[simp] theorem State.readReg_writeReg (s : State) (i j : RegIdx) (v : Word) :
    (s.writeReg i v).readReg j = if i = j then v else s.readReg j := by
  simp only [State.readReg, State.writeReg_regs, Fin.getElem_fin, Vector.getElem_set, Fin.ext_iff]

/-- What a register holds depends on the register file alone. -/
theorem State.readReg_congr {s t : State} (h : t.regs = s.regs) (i : RegIdx) : t.readReg i = s.readReg i := by
  rw [State.readReg, State.readReg, h]

section
variable (s : State) (j : RegIdx)
@[simp] theorem State.readReg_jump (a : Word) : (s.jump a).readReg j = s.readReg j := rfl
@[simp] theorem State.readReg_advance (n : Nat) : (s.advance n).readReg j = s.readReg j := rfl
@[simp] theorem State.readReg_pushEntry (v : Word) : (s.pushEntry v).readReg j = s.readReg j := rfl
@[simp] theorem State.readReg_popEntry : s.popEntry.readReg j = s.readReg j := rfl
@[simp] theorem State.readReg_memWrite (a : Word) (v : Field) : (s.memWrite a v).readReg j = s.readReg j := rfl
@[simp] theorem State.readReg_takeByte : s.takeByte.readReg j = s.readReg j := rfl
@[simp] theorem State.readReg_emitByte (b : Byte) : (s.emitByte b).readReg j = s.readReg j := rfl
@[simp] theorem State.readReg_haltCore : s.haltCore.readReg j = s.readReg j := rfl
@[simp] theorem State.readReg_enterFault (k : Cause) (p : BitVec 16) (op : Field) :
    (s.enterFault k p op).readReg j = s.readReg j := rfl
end

/-! ### The call stack -/

theorem StackStore.read_put_same (stk : StackStore) (k : Nat) (v : Word) :
    StackStore.read (Store.put k v stk) k = v := by
  simp [StackStore.read, Store.find_put_same]

theorem StackStore.read_put_ne (stk : StackStore) {k j : Nat} (h : j ≠ k) (v : Word) :
    StackStore.read (Store.put k v stk) j = StackStore.read stk j := by
  simp [StackStore.read, Store.find_put_ne h]

theorem StackStore.wf_iff {stk : StackStore} :
    StackStore.wf stk = true ↔ Store.sorted stk = true ∧ ∀ e ∈ stk, e.1 < 32768 := by
  simp [StackStore.wf]

theorem StackStore.wf_put {stk : StackStore} {k : Nat} {v : Word} (h : StackStore.wf stk = true) (hk : k < 32768) :
    StackStore.wf (Store.put k v stk) = true := by
  obtain ⟨hs, he⟩ := StackStore.wf_iff.1 h
  refine StackStore.wf_iff.2 ⟨Store.sorted_put hs, fun e h => ?_⟩
  rcases Store.mem_put h with rfl | h
  · exact hk
  · exact he e h

/-- A push on a stack that is not full deepens it by one. -/
theorem State.pushEntry_sp_toNat (s : State) (v : Word) (h : s.sp.toNat < 32768) :
    (s.pushEntry v).sp.toNat = s.sp.toNat + 1 := by
  simp [BitVec.toNat_add]; omega

/-- A pop from a stack that is not empty takes one entry off. -/
theorem State.popEntry_sp_toNat (s : State) (h : s.sp.toNat ≠ 0) : s.popEntry.sp.toNat = s.sp.toNat - 1 := by
  have := s.sp.isLt
  simp [BitVec.toNat_sub]; omega

/-- The top of a stack that is not empty is its last live entry. -/
theorem State.top_eq (s : State) (h : s.sp.toNat ≠ 0) : s.top = StackStore.read s.stk (s.sp.toNat - 1) := by
  have := State.popEntry_sp_toNat s h
  rw [State.popEntry_sp] at this
  rw [State.top, this]

end Sys2Proof.Machine
end

