-- ==== Sys2Proof/Laws/Environment.lean ====
section
/-! SUPPORT. What the environment's operations do: the loader's memory, and one lemma per field for the reset input. -/

namespace Sys2Proof.Machine

/-- Writing a run of words: each cell of the run holds its word, every other cell is left alone. -/
theorem Memory.readCell_writeWords (ws : List Field) (m : Memory) (k j : Nat) :
    (m.writeWords k ws).readCell j = if k ≤ j ∧ j < k + ws.length then ws.getD (j - k) 0 else m.readCell j := by
  induction ws generalizing m k with
  | nil => simp [Memory.writeWords]
  | cons w ws ih =>
    rw [Memory.writeWords, ih, List.length_cons]
    by_cases hj : j = k
    · subst hj
      rw [if_neg (by omega), if_pos (by omega), Memory.readCell_writeCell_same, Nat.sub_self, List.getD_cons_zero]
    · rw [Memory.readCell_writeCell_ne _ hj]
      by_cases hr : k + 1 ≤ j ∧ j < k + 1 + ws.length
      · obtain ⟨n, rfl⟩ := Nat.exists_eq_add_of_le hr.1
        rw [if_pos hr, if_pos (by omega), Nat.add_sub_cancel_left, Nat.add_assoc, Nat.add_sub_cancel_left,
          Nat.add_comm 1 n, List.getD_cons_succ]
      · rw [if_neg hr, if_neg (by omega)]

/-- Writing a run of words inside the Address Space keeps the canonical form. -/
theorem Memory.wf_writeWords (ws : List Field) (m : Memory) (k : Nat) (h : m.wf = true) (hk : k + ws.length ≤ 32768) :
    (m.writeWords k ws).wf = true := by
  induction ws generalizing m k with
  | nil => exact h
  | cons w ws ih =>
    rw [List.length_cons] at hk
    exact ih _ _ (Memory.wf_writeCell h (by omega)) (by omega)

/-- Memory with nothing listed holds 0 everywhere (R65). -/
theorem Memory.readCell_nil (j : Nat) : Memory.readCell [] j = 0 := by
  simp [Memory.readCell, Memory.readByte, Store.find, Memory.unlistedByte]

/-- What the loader can do (R222, R206). -/
theorem load_cases (image : Option (List Byte)) (s : State) :
    (∃ e, load image s = .error e) ∨
    (∃ bytes ws, image = some bytes ∧ imageWords bytes = some ws ∧ ws.length ≤ 32768 ∧
      load image s = .ok { s with mem := Memory.writeWords [] 0 ws, L := BitVec.ofNat 16 ws.length }) := by
  cases image with
  | none => exact .inl ⟨_, rfl⟩
  | some bytes =>
    simp only [load, Config.addressCells]
    cases hw : imageWords bytes with
    | none => exact .inl ⟨_, rfl⟩
    | some ws =>
      simp only
      split
      · exact .inl ⟨_, rfl⟩
      · exact .inr ⟨bytes, ws, rfl, hw, by omega, rfl⟩

/-- What a boot can do (R206, R222). -/
theorem boot_cases (l : Launch) (s : State) :
    (∃ e, boot l s = (some e, assertReset s)) ∨
    (∃ bytes ws, l.image = some bytes ∧ imageWords bytes = some ws ∧ ws.length ≤ 32768 ∧
      boot l s = (none, releaseReset (connectHost l
        { assertReset s with mem := Memory.writeWords [] 0 ws, L := BitVec.ofNat 16 ws.length }))) := by
  rcases load_cases l.image (assertReset s) with ⟨e, h⟩ | ⟨bytes, ws, hi, hw, hl, h⟩
  · exact .inl ⟨e, by rw [boot, h]⟩
  · exact .inr ⟨bytes, ws, hi, hw, hl, by rw [boot, h]⟩

section
variable (s : State)
@[simp] theorem assertReset_resetAsserted : (assertReset s).resetAsserted = true := rfl
@[simp] theorem assertReset_status : (assertReset s).status = s.status := rfl
@[simp] theorem releaseReset_resetAsserted : (releaseReset s).resetAsserted = false := rfl
@[simp] theorem releaseReset_status : (releaseReset s).status = .running := rfl
@[simp] theorem releaseReset_pc : (releaseReset s).pc = 0 := rfl
@[simp] theorem releaseReset_sp : (releaseReset s).sp = 0 := rfl
@[simp] theorem releaseReset_stk : (releaseReset s).stk = [] := rfl
@[simp] theorem releaseReset_cause : (releaseReset s).cause = .none := rfl
@[simp] theorem releaseReset_faultPc : (releaseReset s).faultPc = 0 := rfl
@[simp] theorem releaseReset_faultOp : (releaseReset s).faultOp = 0 := rfl
@[simp] theorem releaseReset_L : (releaseReset s).L = s.L := rfl
@[simp] theorem releaseReset_mem : (releaseReset s).mem = s.mem := rfl
@[simp] theorem releaseReset_input : (releaseReset s).input = s.input := rfl
@[simp] theorem releaseReset_inputPos : (releaseReset s).inputPos = s.inputPos := rfl
end

end Sys2Proof.Machine
end

