-- ==== Sys2Proof/Laws/Exec.lean ====
section
/-! SUPPORT. What a shared operation, a meaning and a step can do, said once: the lemmas that proofs about
instructions cite instead of unfolding meanings. -/

namespace Sys2Proof.Machine

/-! ### Operand resolution -/

@[simp] theorem val_literal (s : State) (w : Word) : val s (.literal w) = .ok w := rfl
@[simp] theorem val_register (s : State) (i : RegIdx) : val s (.register i) = .ok (s.readReg i) := rfl
@[simp] theorem val_invalid (s : State) (f : Field) : val s (.invalid f) = .error .invalidOperand := rfl
@[simp] theorem dst_literal (w : Word) : dst (.literal w) = .error .invalidRegisterTarget := rfl
@[simp] theorem dst_register (i : RegIdx) : dst (.register i) = .ok i := rfl
@[simp] theorem dst_invalid (f : Field) : dst (.invalid f) = .error .invalidRegisterTarget := rfl

/-- A destination slot resolves exactly when it is a register reference (R75). -/
theorem dst_eq_ok {a : Operand} {d : RegIdx} : dst a = .ok d ↔ a = .register d := by
  cases a <;> simp [dst]

/-- A destination slot that does not resolve raises InvalidRegisterTarget and is no register reference (R75). -/
theorem dst_eq_error {a : Operand} {k : Cause} (h : dst a = .error k) :
    k = .invalidRegisterTarget ∧ ∀ d, a ≠ .register d := by
  cases a <;> simp_all [dst]

/-- A destination slot that is no register reference raises InvalidRegisterTarget (R75). -/
theorem dst_of_not_register {a : Operand} (h : ∀ d, a ≠ .register d) : dst a = .error .invalidRegisterTarget := by
  cases a <;> simp_all

/-- A value slot that does not resolve raises InvalidOperand and holds an invalid field (R74). -/
theorem val_eq_error {s : State} {a : Operand} {k : Cause} (h : val s a = .error k) :
    k = .invalidOperand ∧ ∃ f, a = .invalid f := by
  cases a <;> simp_all [val]

/-! ### Stages 3 and 4 -/

@[simp] theorem resolve_ok {α : Type} (x : α) (k : α → Effect) : resolve (.ok x) k = k x := rfl
@[simp] theorem resolve_error {α : Type} (c : Cause) (k : α → Effect) : resolve (.error c) k = .raise c := rfl

/-- The stack's two operations, by their outcomes (R30). -/
theorem push_eq_ok {s t : State} {v : Word} :
    s.push v = .ok t ↔ s.sp.toNat ≠ 32768 ∧ t = s.pushEntry v := by
  simp only [State.push, Config.stackCapacity]
  split <;> simp_all [eq_comm]

theorem push_eq_error {s : State} {v : Word} {k : Cause} :
    s.push v = .error k ↔ s.sp.toNat = 32768 ∧ k = .stackOverflow := by
  simp only [State.push, Config.stackCapacity]
  split <;> simp_all [eq_comm]

theorem pop_eq_ok {s : State} {p : Word × State} :
    s.pop = .ok p ↔ s.sp.toNat ≠ 0 ∧ p = (s.top, s.popEntry) := by
  simp only [State.pop]
  split <;> simp_all [eq_comm]

theorem pop_eq_error {s : State} {k : Cause} : s.pop = .error k ↔ s.sp.toNat = 0 ∧ k = .stackUnderflow := by
  simp only [State.pop]
  split <;> simp_all [eq_comm]

/-! ### The end of a step -/

@[simp] theorem complete_commit (op : Field) (s t : State) :
    complete op s (.commit t) = .next (t.boundCheck s.pc op) := rfl
@[simp] theorem complete_raise (op : Field) (s : State) (k : Cause) :
    complete op s (.raise k) = .next (s.enterFault k s.pc op) := rfl
@[simp] theorem complete_wait (op : Field) (s : State) : complete op s .wait = .fault .waitingForHost := rfl

/-- Within the program length the bound check changes nothing (R26). -/
theorem State.boundCheck_of_le {t : State} (h : t.pc.toNat ≤ t.L.toNat) (p : BitVec 16) (op : Field) :
    t.boundCheck p op = t := by
  rw [State.boundCheck, if_neg (by omega)]

/-- Above the program length it is fault entry (R26). -/
theorem State.boundCheck_of_lt {t : State} (h : t.L.toNat < t.pc.toNat) (p : BitVec 16) (op : Field) :
    t.boundCheck p op = t.enterFault .programCounterOutOfBounds p op := by
  rw [State.boundCheck, if_pos h]

/-- The bound check either changes nothing or is fault entry (R26). -/
theorem State.boundCheck_cases (t : State) (p : BitVec 16) (op : Field) :
    (t.pc.toNat ≤ t.L.toNat ∧ t.boundCheck p op = t) ∨
    (t.L.toNat < t.pc.toNat ∧ t.boundCheck p op = t.enterFault .programCounterOutOfBounds p op) := by
  rcases Nat.lt_or_ge t.L.toNat t.pc.toNat with h | h
  · exact .inr ⟨h, State.boundCheck_of_lt h p op⟩
  · exact .inl ⟨h, State.boundCheck_of_le h p op⟩

/-- Sequential advance after stage 1 does not wrap (R24, R25). -/
theorem State.advance_pc_toNat (s : State) (n : Nat) (h : s.pc.toNat + n < 65536) :
    (s.advance n).pc.toNat = s.pc.toNat + n := by
  simp [BitVec.toNat_add]; omega

/-- A jump target is used as it is (R135). -/
@[simp] theorem State.jump_pc_toNat (s : State) (a : Word) : (s.jump a).pc.toNat = a.toNat := by
  have := a.isLt
  simp [BitVec.toNat_setWidth]; omega

section
variable {op : Field} {s t : State}

/-- A sequential instruction that stays within the program length completes (R25, R26). -/
theorem complete_advance_of_le {n : Nat} (hpc : t.pc = s.pc) (hL : t.L = s.L) (h : s.pc.toNat + n ≤ s.L.toNat) :
    complete op s (.commit (t.advance n)) = .next (t.advance n) := by
  have hlt := s.L.isLt
  rw [complete_commit, State.boundCheck_of_le]
  rw [State.advance_pc_toNat t n (by rw [hpc]; omega), State.advance_L, hpc, hL]
  exact h

/-- A sequential instruction that runs over the program length commits and then faults (R25, R26). -/
theorem complete_advance_of_lt {n : Nat} (hpc : t.pc = s.pc) (hL : t.L = s.L) (hp : s.pc.toNat ≤ 32764) (hn : n ≤ 4)
    (h : s.L.toNat < s.pc.toNat + n) :
    complete op s (.commit (t.advance n)) =
      .next ((t.advance n).enterFault .programCounterOutOfBounds s.pc op) := by
  rw [complete_commit, State.boundCheck_of_lt]
  rw [State.advance_pc_toNat t n (by rw [hpc]; omega), State.advance_L, hpc, hL]
  exact h

/-- A jump to an address within the program length completes (R26, R135). -/
theorem complete_jump_of_le {a : Word} (hL : t.L = s.L) (h : a.toNat ≤ s.L.toNat) :
    complete op s (.commit (t.jump a)) = .next (t.jump a) := by
  rw [complete_commit, State.boundCheck_of_le]
  rw [State.jump_pc_toNat, State.jump_L, hL]
  exact h

/-- A jump above the program length is made and then faults (R26, R135). -/
theorem complete_jump_of_lt {a : Word} (hL : t.L = s.L) (h : s.L.toNat < a.toNat) :
    complete op s (.commit (t.jump a)) = .next ((t.jump a).enterFault .programCounterOutOfBounds s.pc op) := by
  rw [complete_commit, State.boundCheck_of_lt]
  rw [State.jump_pc_toNat, State.jump_L, hL]
  exact h

end

/-! ### What each instruction can do -/

/-- `Commits i s u`: run in `s`, instruction `i` passes stages 3 and 4 and commits the state `u` (R85). -/
inductive Commits : Instr → State → State → Prop where
  | noop (s) : Commits .noop s (s.advance 1)
  | set (s d b v) : val s b = .ok v → Commits (.set (.register d) b) s ((s.writeReg d v).advance 3)
  | push (s a v) : val s a = .ok v → s.sp.toNat ≠ 32768 → Commits (.push a) s ((s.pushEntry v).advance 2)
  | pop (s d) : s.sp.toNat ≠ 0 → Commits (.pop (.register d)) s ((s.popEntry.writeReg d s.top).advance 2)
  | eq (s d b c v w) : val s b = .ok v → val s c = .ok w →
      Commits (.eq (.register d) b c) s ((s.writeReg d (eqResult v w)).advance 4)
  | gt (s d b c v w) : val s b = .ok v → val s c = .ok w →
      Commits (.gt (.register d) b c) s ((s.writeReg d (gtResult v w)).advance 4)
  | jmp (s a t) : val s a = .ok t → Commits (.jmp a) s (s.jump t)
  | jt (s a b v t) : val s a = .ok v → val s b = .ok t →
      Commits (.jt a b) s (if isNonzero v then s.jump t else s.advance 3)
  | jf (s a b v t) : val s a = .ok v → val s b = .ok t →
      Commits (.jf a b) s (if !isNonzero v then s.jump t else s.advance 3)
  | add (s d b c v w) : val s b = .ok v → val s c = .ok w →
      Commits (.add (.register d) b c) s ((s.writeReg d (aluAdd v w)).advance 4)
  | mult (s d b c v w) : val s b = .ok v → val s c = .ok w →
      Commits (.mult (.register d) b c) s ((s.writeReg d (aluMult v w)).advance 4)
  | mod (s d b c v w r) : val s b = .ok v → val s c = .ok w → aluMod v w = .ok r →
      Commits (.mod (.register d) b c) s ((s.writeReg d r).advance 4)
  | and (s d b c v w) : val s b = .ok v → val s c = .ok w →
      Commits (.and (.register d) b c) s ((s.writeReg d (aluAnd v w)).advance 4)
  | or (s d b c v w) : val s b = .ok v → val s c = .ok w →
      Commits (.or (.register d) b c) s ((s.writeReg d (aluOr v w)).advance 4)
  | not (s d b v) : val s b = .ok v → Commits (.not (.register d) b) s ((s.writeReg d (aluNot v)).advance 3)
  | rmem (s d b addr v) : val s b = .ok addr → loadWord s addr = .ok v →
      Commits (.rmem (.register d) b) s ((s.writeReg d v).advance 3)
  | wmem (s a b addr v) : val s a = .ok addr → val s b = .ok v →
      Commits (.wmem a b) s ((s.memWrite addr (v.setWidth 16)).advance 3)
  | call (s a t) : val s a = .ok t → s.sp.toNat ≠ 32768 →
      Commits (.call a) s ((s.pushEntry (returnAddress s)).jump t)
  | ret (s) : s.sp.toNat ≠ 0 → Commits .ret s (s.popEntry.jump s.top)
  | out (s a v) : val s a = .ok v → s.sinkReady = true →
      Commits (.out a) s ((s.emitByte (v.setWidth 8)).advance 2)
  | inp (s d y) : s.inByte = .byte y →
      Commits (.inp (.register d)) s ((s.takeByte.writeReg d (y.setWidth 15)).advance 2)

/-- What no instruction but halt writes before it retires: the status, the fault record, `L`, and what the host and the
reset input hold (R31, R32, R36). -/
theorem Commits.keeps {i : Instr} {s u : State} (h : Commits i s u) :
    u.status = s.status ∧ u.cause = s.cause ∧ u.faultPc = s.faultPc ∧ u.faultOp = s.faultOp ∧ u.L = s.L ∧
    u.resetAsserted = s.resetAsserted ∧ u.input = s.input ∧ u.inputEnded = s.inputEnded ∧
    u.sinkReady = s.sinkReady := by
  cases h <;> (try split) <;> simp

/-- `Raises i s k`: run in `s`, instruction `i` raises `k` in stage 3 or 4 (R83, R84). -/
inductive Raises : Instr → State → Cause → Prop where
  | target (i s a) : i.destination = some a → (∀ d, a ≠ .register d) → Raises i s .invalidRegisterTarget
  | operand (i s f) : .invalid f ∈ i.values → Raises i s .invalidOperand
  | pushFull (a) (s : State) : s.sp.toNat = 32768 → Raises (.push a) s .stackOverflow
  | callFull (a) (s : State) : s.sp.toNat = 32768 → Raises (.call a) s .stackOverflow
  | popEmpty (a) (s : State) : s.sp.toNat = 0 → Raises (.pop a) s .stackUnderflow
  | retEmpty (s : State) : s.sp.toNat = 0 → Raises .ret s .stackUnderflow
  | modZero (a b c s) : val s c = .ok 0 → Raises (.mod a b c) s .divideByZero
  | rmemHigh (a b s addr) : val s b = .ok addr → (s.memRead addr).getLsbD 15 = true →
      Raises (.rmem a b) s .invalidMemoryValue
  | inpEnded (a) (s : State) : s.inByte = .eof → Raises (.inp a) s .inputExhausted

/-- No instruction raises the cause that means no fault. -/
theorem Raises.ne_none {i : Instr} {s : State} {k : Cause} (h : Raises i s k) : k ≠ .none := by
  cases h <;> simp

/-- Neither a byte nor the end is at the input port (R181). -/
theorem State.inByte_eq_notYet {s : State} :
    s.inByte = .notYet ↔ s.input.length ≤ s.inputPos ∧ s.inputEnded = false := by
  unfold State.inByte
  split
  · next hb => simp [(List.getElem?_eq_some_iff.1 hb).1]
  · next hb => simp [List.getElem?_eq_none_iff.1 hb]

/-- How the step of an instruction other than halt ends (R84, R85, R213). -/
inductive Ends (i : Instr) (s : State) : Host.Outcome State Fault Refusal → Prop where
  | commit (u) : Commits i s u → Ends i s (.next (u.boundCheck s.pc i.opcode))
  | raise (k) : Raises i s k → Ends i s (.next (s.enterFault k s.pc i.opcode))
  | wait : AwaitsHost i s → Ends i s (.fault .waitingForHost)

section
variable {i : Instr} {s : State}

theorem unaryToReg_ends {op : Field} {f : Word → Except Cause Word} {a b : Operand}
    (hop : op = i.opcode) (hd : i.destination = some a) (hv : i.values = [b])
    (hc : ∀ d v r, a = .register d → val s b = .ok v → f v = .ok r → Commits i s ((s.writeReg d r).advance 3))
    (hr : ∀ v k, val s b = .ok v → f v = .error k → Raises i s k) :
    Ends i s (unaryToReg op f a b s) := by
  subst hop
  unfold unaryToReg
  cases ha : dst a with
  | error k =>
    obtain ⟨rfl, hn⟩ := dst_eq_error ha
    exact .raise _ (.target i s a hd hn)
  | ok d =>
    cases hb : val s b with
    | error k =>
      obtain ⟨rfl, g, rfl⟩ := val_eq_error hb
      exact .raise _ (.operand i s g (by simp [hv]))
    | ok v =>
      cases hf : f v with
      | error k => simpa [hf] using .raise k (hr v k hb hf)
      | ok r => simpa [hf] using .commit _ (hc d v r (dst_eq_ok.1 ha) hb hf)

theorem binaryToReg_ends {op : Field} {f : Word → Word → Except Cause Word} {a b c : Operand}
    (hop : op = i.opcode) (hd : i.destination = some a) (hv : i.values = [b, c])
    (hc : ∀ d v w r, a = .register d → val s b = .ok v → val s c = .ok w → f v w = .ok r →
      Commits i s ((s.writeReg d r).advance 4))
    (hr : ∀ v w k, val s b = .ok v → val s c = .ok w → f v w = .error k → Raises i s k) :
    Ends i s (binaryToReg op f a b c s) := by
  subst hop
  unfold binaryToReg
  cases ha : dst a with
  | error k =>
    obtain ⟨rfl, hn⟩ := dst_eq_error ha
    exact .raise _ (.target i s a hd hn)
  | ok d =>
    cases hb : val s b with
    | error k =>
      obtain ⟨rfl, g, rfl⟩ := val_eq_error hb
      exact .raise _ (.operand i s g (by simp [hv]))
    | ok v =>
      cases hcv : val s c with
      | error k =>
        obtain ⟨rfl, g, rfl⟩ := val_eq_error hcv
        exact .raise _ (.operand i s g (by simp [hv]))
      | ok w =>
        cases hf : f v w with
        | error k => simpa [hf] using .raise k (hr v w k hb hcv hf)
        | ok r => simpa [hf] using .commit _ (hc d v w r (dst_eq_ok.1 ha) hb hcv hf)

theorem branchIf_ends {op : Field} {p : Word → Bool} {a b : Operand} (hop : op = i.opcode) (hv : i.values = [a, b])
    (hc : ∀ v t, val s a = .ok v → val s b = .ok t → Commits i s (if p v then s.jump t else s.advance 3)) :
    Ends i s (branchIf op p a b s) := by
  subst hop
  unfold branchIf
  cases ha : val s a with
  | error k =>
    obtain ⟨rfl, g, rfl⟩ := val_eq_error ha
    exact .raise _ (.operand i s g (by simp [hv]))
  | ok v =>
    cases hb : val s b with
    | error k =>
      obtain ⟨rfl, g, rfl⟩ := val_eq_error hb
      exact .raise _ (.operand i s g (by simp [hv]))
    | ok t => exact .commit _ (hc v t ha hb)

/-- An instruction whose first slot is a value slot: it faults there, or goes on with the value. -/
theorem value_ends {a : Operand} {k : Word → Effect} (ha : a ∈ i.values)
    (h : ∀ v, val s a = .ok v → Ends i s (complete i.opcode s (k v))) :
    Ends i s (complete i.opcode s (resolve (val s a) k)) := by
  cases hv : val s a with
  | error c =>
    obtain ⟨rfl, g, rfl⟩ := val_eq_error hv
    exact .raise _ (.operand i s g ha)
  | ok v => exact h v hv

/-- An instruction whose first slot is a destination: it faults there, or goes on with the register. -/
theorem target_ends {a : Operand} {k : RegIdx → Effect} (ha : i.destination = some a)
    (h : ∀ d, a = .register d → Ends i s (complete i.opcode s (k d))) :
    Ends i s (complete i.opcode s (resolve (dst a) k)) := by
  cases hv : dst a with
  | error c =>
    obtain ⟨rfl, hn⟩ := dst_eq_error hv
    exact .raise _ (.target i s a ha hn)
  | ok d => exact h d (dst_eq_ok.1 hv)

/-- A push that overflows raises the given fault, else goes on with the deeper stack. -/
theorem push_ends {v : Word} {k : State → Effect} (hr : s.sp.toNat = 32768 → Raises i s .stackOverflow)
    (h : s.sp.toNat ≠ 32768 → Ends i s (complete i.opcode s (k (s.pushEntry v)))) :
    Ends i s (complete i.opcode s (resolve (s.push v) k)) := by
  cases hp : s.push v with
  | error c =>
    obtain ⟨hf, rfl⟩ := push_eq_error.1 hp
    exact .raise _ (hr hf)
  | ok u =>
    obtain ⟨hf, rfl⟩ := push_eq_ok.1 hp
    exact h hf

/-- A pop that underflows raises the given fault, else goes on with the top and the shallower stack. -/
theorem pop_ends {k : Word × State → Effect} (hr : s.sp.toNat = 0 → Raises i s .stackUnderflow)
    (h : s.sp.toNat ≠ 0 → Ends i s (complete i.opcode s (k (s.top, s.popEntry)))) :
    Ends i s (complete i.opcode s (resolve s.pop k)) := by
  cases hp : s.pop with
  | error c =>
    obtain ⟨hf, rfl⟩ := pop_eq_error.1 hp
    exact .raise _ (hr hf)
  | ok u =>
    obtain ⟨hf, rfl⟩ := pop_eq_ok.1 hp
    exact h hf

end

/-- What `aluMod` can do (R153). -/
theorem aluMod_cases (v w : Word) :
    (w = 0 ∧ aluMod v w = .error .divideByZero) ∨ (w ≠ 0 ∧ aluMod v w = .ok (BitVec.ofNat 15 (v.toNat % w.toNat))) := by
  unfold aluMod; split <;> simp_all

/-- What `loadWord` can do (R170). -/
theorem loadWord_cases (s : State) (addr : Word) :
    ((s.memRead addr).getLsbD 15 = true ∧ loadWord s addr = .error .invalidMemoryValue) ∨
    ((s.memRead addr).getLsbD 15 = false ∧ loadWord s addr = .ok ((s.memRead addr).setWidth 15)) := by
  unfold loadWord; split <;> simp_all

/-- Every instruction but halt ends by committing, by raising a fault or by waiting. -/
theorem exec_ends (i : Instr) (s : State) (hi : i ≠ .halt) : Ends i s (exec i s) := by
  cases i with
  | halt => exact absurd rfl hi
  | noop => exact .commit _ (.noop s)
  | set a b =>
    exact unaryToReg_ends rfl rfl rfl (by rintro d v r rfl hv ⟨⟩; exact .set _ _ _ _ hv) (by rintro v k - ⟨⟩)
  | not a b =>
    exact unaryToReg_ends rfl rfl rfl (by rintro d v r rfl hv ⟨⟩; exact .not _ _ _ _ hv) (by rintro v k - ⟨⟩)
  | rmem a b =>
    refine unaryToReg_ends rfl rfl rfl (by rintro d v r rfl hv hf; exact .rmem _ _ _ _ _ hv hf) ?_
    intro v k hv hf
    rcases loadWord_cases s v with ⟨hm, he⟩ | ⟨hm, he⟩ <;> rw [he] at hf <;> cases hf
    exact .rmemHigh _ _ _ _ hv hm
  | eq a b c =>
    exact binaryToReg_ends rfl rfl rfl (by rintro d v w r rfl hv hw ⟨⟩; exact .eq _ _ _ _ _ _ hv hw) (by rintro v w k - - ⟨⟩)
  | gt a b c =>
    exact binaryToReg_ends rfl rfl rfl (by rintro d v w r rfl hv hw ⟨⟩; exact .gt _ _ _ _ _ _ hv hw) (by rintro v w k - - ⟨⟩)
  | add a b c =>
    exact binaryToReg_ends rfl rfl rfl (by rintro d v w r rfl hv hw ⟨⟩; exact .add _ _ _ _ _ _ hv hw) (by rintro v w k - - ⟨⟩)
  | mult a b c =>
    exact binaryToReg_ends rfl rfl rfl (by rintro d v w r rfl hv hw ⟨⟩; exact .mult _ _ _ _ _ _ hv hw) (by rintro v w k - - ⟨⟩)
  | and a b c =>
    exact binaryToReg_ends rfl rfl rfl (by rintro d v w r rfl hv hw ⟨⟩; exact .and _ _ _ _ _ _ hv hw) (by rintro v w k - - ⟨⟩)
  | or a b c =>
    exact binaryToReg_ends rfl rfl rfl (by rintro d v w r rfl hv hw ⟨⟩; exact .or _ _ _ _ _ _ hv hw) (by rintro v w k - - ⟨⟩)
  | mod a b c =>
    refine binaryToReg_ends rfl rfl rfl (by rintro d v w r rfl hv hw hf; exact .mod _ _ _ _ _ _ _ hv hw hf) ?_
    intro v w k hv hw hf
    rcases aluMod_cases v w with ⟨rfl, he⟩ | ⟨h0, he⟩ <;> rw [he] at hf <;> cases hf
    exact .modZero _ _ _ _ hw
  | jt a b => exact branchIf_ends rfl rfl fun v t hv ht => .jt _ _ _ _ _ hv ht
  | jf a b => exact branchIf_ends rfl rfl fun v t hv ht => .jf _ _ _ _ _ hv ht
  | jmp a =>
    exact value_ends (i := .jmp a) (by simp [Instr.values]) fun v hv => .commit _ (.jmp _ _ _ hv)
  | wmem a b =>
    exact value_ends (i := .wmem a b) (by simp [Instr.values]) fun v hv =>
      value_ends (i := .wmem a b) (by simp [Instr.values]) fun w hw => .commit _ (.wmem _ _ _ _ _ hv hw)
  | push a =>
    exact value_ends (i := .push a) (by simp [Instr.values]) fun v hv =>
      push_ends (.pushFull a s) fun hs => .commit _ (.push _ _ _ hv hs)
  | call a =>
    exact value_ends (i := .call a) (by simp [Instr.values]) fun v hv =>
      push_ends (.callFull a s) fun hs => .commit _ (.call _ _ _ hv hs)
  | ret => exact pop_ends (i := .ret) (.retEmpty s) fun hs => .commit _ (.ret _ hs)
  | pop a =>
    refine target_ends (i := .pop a) rfl ?_
    rintro d rfl
    exact pop_ends (.popEmpty _ s) fun hs => .commit _ (.pop _ _ hs)
  | out a =>
    refine value_ends (i := .out a) (by simp [Instr.values]) fun v hv => ?_
    cases hr : s.sinkReady with
    | true => exact .commit _ (.out _ _ _ hv hr)
    | false => simpa [hr] using Ends.wait (.inl ⟨a, v, rfl, hv, hr⟩)
  | inp a =>
    refine target_ends (i := .inp a) rfl ?_
    rintro d rfl
    cases hr : s.inByte with
    | byte y => exact .commit _ (.inp _ _ _ hr)
    | eof => simpa [hr] using Ends.raise _ (.inpEnded _ s hr)
    | notYet => simpa [hr] using Ends.wait (.inr ⟨d, rfl, State.inByte_eq_notYet.1 hr⟩)

/-- What an instruction can do: halt enters HALTED, every other ends by committing, faulting or waiting. -/
theorem exec_cases {i : Instr} {s t : State} (h : exec i s = .next t) :
    (i = .halt ∧ t = s.haltCore) ∨ (i ≠ .halt ∧ Ends i s (.next t)) := by
  by_cases hi : i = .halt
  · subst hi
    exact .inl ⟨rfl, by simpa [exec, execHalt] using h.symm⟩
  · exact .inr ⟨hi, h ▸ exec_ends i s hi⟩

/-- An instruction that waits on the host has no step (R213, U9). -/
theorem exec_of_awaitsHost {i : Instr} {s : State} (h : AwaitsHost i s) : exec i s = .fault .waitingForHost := by
  obtain ⟨a, v, rfl, hv, hr⟩ | ⟨d, rfl, hw⟩ := h
  · simp [exec, execOut, hv, hr]
  · simp [exec, execIn, State.inByte_eq_notYet.2 hw]

/-- An instruction that does not wait on the host ends in a next state. -/
theorem exec_of_not_awaitsHost {i : Instr} {s : State} (h : ¬AwaitsHost i s) : ∃ t, exec i s = .next t := by
  by_cases hi : i = .halt
  · subst hi
    exact ⟨_, rfl⟩
  · generalize ho : exec i s = o
    cases ho ▸ exec_ends i s hi with
    | commit u hu => exact ⟨_, rfl⟩
    | raise k hk => exact ⟨_, rfl⟩
    | wait hw => exact absurd hw h

/-- An instruction that can commit does, and halt is none of these (R85). -/
theorem exec_of_commits {i : Instr} {s u : State} (h : Commits i s u) :
    i ≠ .halt ∧ exec i s = .next (u.boundCheck s.pc i.opcode) := by
  cases h with
  | jt => exact ⟨by simp, by simp [exec, execJt, branchIf, *, Instr.opcode]⟩
  | jf => exact ⟨by simp, by simp [exec, execJf, branchIf, *, Instr.opcode]⟩
  | inp => exact ⟨by simp, by simp [exec, execIn, *, Instr.opcode]⟩
  | _ =>
    exact ⟨by simp, by
      simp [exec, execNoop, execSet, execPush, execPop, execEq, execGt, execJmp, execCall, execRet, execAdd, execMult,
        execMod, execAnd, execOr, execNot, execRmem, execWmem, execOut, unaryToReg, binaryToReg, State.push, State.pop,
        *, Instr.opcode]⟩

/-- What an instruction other than halt can do, with the two ends of a commit apart (R26, R202). -/
theorem exec_outcomes {i : Instr} {s t : State} (hi : i ≠ .halt) (h : exec i s = .next t) :
    (∃ u, Commits i s u ∧
      (u.pc.toNat ≤ u.L.toNat ∧ t = u ∨
       u.L.toNat < u.pc.toNat ∧ t = u.enterFault .programCounterOutOfBounds s.pc i.opcode)) ∨
    (∃ k, Raises i s k ∧ t = s.enterFault k s.pc i.opcode) := by
  rcases exec_cases h with ⟨rfl, -⟩ | ⟨-, he⟩
  · exact absurd rfl hi
  cases he with
  | commit u hu =>
    rcases u.boundCheck_cases s.pc i.opcode with ⟨hle, e⟩ | ⟨hlt, e⟩
    · exact .inl ⟨u, hu, .inl ⟨hle, e⟩⟩
    · exact .inl ⟨u, hu, .inr ⟨hlt, e⟩⟩
  | raise k hk => exact .inr ⟨k, hk, rfl⟩

/-! ### The step -/

/-- A CORE that can step is RUNNING and out of reset (R32, R220). -/
theorem State.stopped_eq_none {s : State} : s.stopped = none ↔ s.resetAsserted = false ∧ s.status = .running := by
  unfold State.stopped
  cases s.resetAsserted <;> cases s.status <;> simp

/-- What stages 1 and 2 can come to (R81, R82). -/
theorem fetch_cases (s : State) :
    (32764 < s.pc.toNat ∧ s.fetch = .fault .fetchOutOfRange 0) ∨
    (s.pc.toNat ≤ 32764 ∧
      ((∃ i, decode (s.slot 0) (s.slot 1) (s.slot 2) (s.slot 3) = .instr i ∧ s.fetch = .instr i) ∨
       (∃ op, decode (s.slot 0) (s.slot 1) (s.slot 2) (s.slot 3) = .unknownOpcode op ∧
         s.fetch = .fault .unknownOpcode op))) := by
  simp only [State.fetch, Config.lastFetchPc]
  split
  · exact .inl ⟨by assumption, rfl⟩
  · refine .inr ⟨by omega, ?_⟩
    split
    next i h => exact .inl ⟨i, h, rfl⟩
    next op h => exact .inr ⟨op, h, rfl⟩

/-- What a step can do: run the instruction at `pc`, or enter FAULTED with a fault of stage 1 or 2 (R86). -/
theorem step_cases {s t : State} (h : step s = .next t) :
    (s.resetAsserted = false ∧ s.status = .running) ∧
    ((∃ i, s.pc.toNat ≤ 32764 ∧ s.fetch = .instr i ∧ exec i s = .next t) ∨
     (∃ k op, s.fetch = .fault k op ∧ t = s.enterFault k s.pc op)) := by
  unfold step at h
  cases hs : s.stopped with
  | some r => simp [hs] at h
  | none =>
    refine ⟨State.stopped_eq_none.1 hs, ?_⟩
    simp only [hs] at h
    rcases fetch_cases s with ⟨-, hf⟩ | ⟨hp, ⟨i, -, hf⟩ | ⟨op, -, hf⟩⟩ <;> simp only [hf] at h ⊢
    · exact .inr ⟨_, _, rfl, by simpa using h.symm⟩
    · exact .inl ⟨i, hp, rfl, h⟩
    · exact .inr ⟨_, _, rfl, by simpa using h.symm⟩

/-- A CORE that is RUNNING and out of reset has a step, or waits on the host in the instruction at `pc` (R86, R213). -/
theorem step_of_ready {s : State} (h : s.Ready) :
    (∃ t, step s = .next t) ∨ (∃ i, s.fetch = .instr i ∧ AwaitsHost i s ∧ step s = .fault .waitingForHost) := by
  have hs : s.stopped = none := State.stopped_eq_none.2 h
  cases hf : s.fetch with
  | fault k op => exact .inl ⟨_, by simp only [step, hs, hf]; rfl⟩
  | instr i =>
    by_cases hw : AwaitsHost i s
    · exact .inr ⟨i, rfl, hw, by simp only [step, hs, hf, exec_of_awaitsHost hw]⟩
    · exact .inl (by simpa only [step, hs, hf] using exec_of_not_awaitsHost hw)

end Sys2Proof.Machine
end

