-- ==== Sys2Proof/Laws/PerInstr.lean ====
section
/-! SUPPORT. Facts about every instruction as syntax, one lemma per constructor. -/

/-- The encoding of an instruction begins with an opcode word of the map (R78), is as long as its width (R71), and
carries its destination slot, if it has one, first, then its value slots in order (R76). -/
def Sys2Proof.Laws.EncodeShape.Statement (i : Sys2Proof.Instr) : Prop :=
  i.opcode.toNat ≤ 21 ∧ (Sys2Proof.encode i).length = i.width ∧ 1 ≤ i.width ∧ i.width ≤ 4 ∧
  i.operands = i.destination.toList ++ i.values

namespace Sys2Proof.Laws.EncodeShape

theorem halt : Statement (.halt) := by
  refine ⟨?_, rfl, ?_, ?_, rfl⟩ <;> simp [Instr.opcode, Instr.width]
theorem set (a b : Operand) : Statement (.set a b) := by
  refine ⟨?_, rfl, ?_, ?_, rfl⟩ <;> simp [Instr.opcode, Instr.width]
theorem push (a : Operand) : Statement (.push a) := by
  refine ⟨?_, rfl, ?_, ?_, rfl⟩ <;> simp [Instr.opcode, Instr.width]
theorem pop (a : Operand) : Statement (.pop a) := by
  refine ⟨?_, rfl, ?_, ?_, rfl⟩ <;> simp [Instr.opcode, Instr.width]
theorem eq (a b c : Operand) : Statement (.eq a b c) := by
  refine ⟨?_, rfl, ?_, ?_, rfl⟩ <;> simp [Instr.opcode, Instr.width]
theorem gt (a b c : Operand) : Statement (.gt a b c) := by
  refine ⟨?_, rfl, ?_, ?_, rfl⟩ <;> simp [Instr.opcode, Instr.width]
theorem jmp (a : Operand) : Statement (.jmp a) := by
  refine ⟨?_, rfl, ?_, ?_, rfl⟩ <;> simp [Instr.opcode, Instr.width]
theorem jt (a b : Operand) : Statement (.jt a b) := by
  refine ⟨?_, rfl, ?_, ?_, rfl⟩ <;> simp [Instr.opcode, Instr.width]
theorem jf (a b : Operand) : Statement (.jf a b) := by
  refine ⟨?_, rfl, ?_, ?_, rfl⟩ <;> simp [Instr.opcode, Instr.width]
theorem add (a b c : Operand) : Statement (.add a b c) := by
  refine ⟨?_, rfl, ?_, ?_, rfl⟩ <;> simp [Instr.opcode, Instr.width]
theorem mult (a b c : Operand) : Statement (.mult a b c) := by
  refine ⟨?_, rfl, ?_, ?_, rfl⟩ <;> simp [Instr.opcode, Instr.width]
theorem mod (a b c : Operand) : Statement (.mod a b c) := by
  refine ⟨?_, rfl, ?_, ?_, rfl⟩ <;> simp [Instr.opcode, Instr.width]
theorem and (a b c : Operand) : Statement (.and a b c) := by
  refine ⟨?_, rfl, ?_, ?_, rfl⟩ <;> simp [Instr.opcode, Instr.width]
theorem or (a b c : Operand) : Statement (.or a b c) := by
  refine ⟨?_, rfl, ?_, ?_, rfl⟩ <;> simp [Instr.opcode, Instr.width]
theorem not (a b : Operand) : Statement (.not a b) := by
  refine ⟨?_, rfl, ?_, ?_, rfl⟩ <;> simp [Instr.opcode, Instr.width]
theorem rmem (a b : Operand) : Statement (.rmem a b) := by
  refine ⟨?_, rfl, ?_, ?_, rfl⟩ <;> simp [Instr.opcode, Instr.width]
theorem wmem (a b : Operand) : Statement (.wmem a b) := by
  refine ⟨?_, rfl, ?_, ?_, rfl⟩ <;> simp [Instr.opcode, Instr.width]
theorem call (a : Operand) : Statement (.call a) := by
  refine ⟨?_, rfl, ?_, ?_, rfl⟩ <;> simp [Instr.opcode, Instr.width]
theorem ret : Statement (.ret) := by
  refine ⟨?_, rfl, ?_, ?_, rfl⟩ <;> simp [Instr.opcode, Instr.width]
theorem out (a : Operand) : Statement (.out a) := by
  refine ⟨?_, rfl, ?_, ?_, rfl⟩ <;> simp [Instr.opcode, Instr.width]
theorem inp (a : Operand) : Statement (.inp a) := by
  refine ⟨?_, rfl, ?_, ?_, rfl⟩ <;> simp [Instr.opcode, Instr.width]
theorem noop : Statement (.noop) := by
  refine ⟨?_, rfl, ?_, ?_, rfl⟩ <;> simp [Instr.opcode, Instr.width]

end Sys2Proof.Laws.EncodeShape
end

