-- ==== Sys2Proof/Tests/Slice0.lean ====
section
/-! SUPPORT. The model's own tests: well-formedness, decoding of words written out from the opcode map, one or two
steps per instruction with results from the vectors of `95_test_vectors.md`, and a witness for the hypotheses of every
statement. -/

namespace Sys2Proof.Tests

open Sys2Proof Sys2Proof.Machine

/-! ### Well-formedness: an ill-formed term for each slot, and the boundary of the invalid range -/

theorem test_wf_refuses_low_invalid_in_a : Instr.wf (.add (.invalid 32775) (.literal 1) (.literal 1)) = false := by decide
theorem test_wf_refuses_low_invalid_in_b : Instr.wf (.add (.register 0) (.invalid 0) (.literal 1)) = false := by decide
theorem test_wf_refuses_low_invalid_in_c : Instr.wf (.add (.register 0) (.literal 1) (.invalid 32768)) = false := by decide
theorem test_wf_admits_invalid_field : Instr.wf (.add (.invalid 32776) (.literal 1) (.invalid 65535)) = true := by decide

/-! ### Decoding: words written out from R78 and R73 -/

theorem test_decode_halt : decode 0x0000 0xFFFF 0x0009 0x0009 = .instr .halt := by decide
theorem test_decode_set : decode 0x0001 0x8000 123 0 = .instr (.set (.register 0) (.literal 123)) := by decide
theorem test_decode_push : decode 0x0002 7 17 9 = .instr (.push (.literal 7)) := by decide
theorem test_decode_pop : decode 0x0003 0x8004 0 0 = .instr (.pop (.register 4)) := by decide
theorem test_decode_eq : decode 0x0004 0x8001 0x8001 0 = .instr (.eq (.register 1) (.register 1) (.literal 0)) := by decide
theorem test_decode_gt : decode 0x0005 0x8003 5 0x8001 = .instr (.gt (.register 3) (.literal 5) (.register 1)) := by decide
theorem test_decode_jmp : decode 0x0006 100 0 0 = .instr (.jmp (.literal 100)) := by decide
theorem test_decode_jt : decode 0x0007 0x8000 3 16 = .instr (.jt (.register 0) (.literal 3)) := by decide
theorem test_decode_jf : decode 0x0008 0 10 0 = .instr (.jf (.literal 0) (.literal 10)) := by decide
theorem test_decode_add : decode 0x0009 0x8000 0x8001 4 = .instr (.add (.register 0) (.register 1) (.literal 4)) := by decide
theorem test_decode_mult :
    decode 0x000A 0x8002 0x8001 16384 = .instr (.mult (.register 2) (.register 1) (.literal 16384)) := by decide
theorem test_decode_mod : decode 0x000B 0x8004 0x8003 10 = .instr (.mod (.register 4) (.register 3) (.literal 10)) := by decide
theorem test_decode_and : decode 0x000C 0x8004 12 10 = .instr (.and (.register 4) (.literal 12) (.literal 10)) := by decide
theorem test_decode_or : decode 0x000D 0x8005 12 10 = .instr (.or (.register 5) (.literal 12) (.literal 10)) := by decide
theorem test_decode_not : decode 0x000E 0x8003 0x8002 11 = .instr (.not (.register 3) (.register 2)) := by decide
theorem test_decode_rmem : decode 0x000F 0x8002 50 0 = .instr (.rmem (.register 2) (.literal 50)) := by decide
theorem test_decode_wmem : decode 0x0010 50 0x8001 15 = .instr (.wmem (.literal 50) (.register 1)) := by decide
theorem test_decode_call : decode 0x0011 9 3 0x8000 = .instr (.call (.literal 9)) := by decide
theorem test_decode_ret : decode 0x0012 0x8008 0 0 = .instr .ret := by decide
theorem test_decode_out : decode 0x0013 0x8008 0 0 = .instr (.out (.invalid 0x8008)) := by decide
theorem test_decode_in : decode 0x0014 0x8007 0 0 = .instr (.inp (.register 7)) := by decide
theorem test_decode_noop : decode 0x0015 1 2 3 = .instr .noop := by decide
theorem test_decode_22 : decode 0x0016 0 0 0 = .unknownOpcode 0x0016 := by decide
theorem test_decode_register_field_as_opcode : decode 0x8000 0 0 0 = .unknownOpcode 0x8000 := by decide
/-- W1, as one number: the words 9, 32768, 32769, 4, the first word lowest. -/
theorem test_table_word :
    decodeTableWord 64 0x0004800180000009 = some (.add (.register 0) (.register 1) (.literal 4)) := by decide

/-! ### Steps -/

/-- The outcome is a next state that passes the check. -/
def nextIs (o : Host.Outcome State Fault Refusal) (check : State → Bool) : Bool :=
  match o with
  | .next t => check t
  | .fault _ => false
  | .refused _ => false

/-- The reset state with the words loaded at 0 and program length `n`. -/
def loaded (words : List Field) (n : BitVec 16) : State :=
  { State.reset with mem := Memory.writeWords [] 0 words, L := n }

/-- The machine has faulted with the given record (R203). -/
def faultedWith (k : Cause) (p : BitVec 16) (op : Field) (t : State) : Bool :=
  t.status == .faulted && t.cause == k && t.faultPc == p && t.faultOp == op

/-- V1. -/
theorem test_halt : nextIs (step (loaded [0, 9, 9, 9, 65535] 5))
    (fun t => t == { loaded [0, 9, 9, 9, 65535] 5 with status := .halted }) = true := by decide
/-- V3. -/
theorem test_noop : nextIs (step (loaded [21] 1)) (fun t => t.pc == 1 && t.status == .running) = true := by decide
/-- V6. -/
theorem test_opcode_22 : nextIs (step (loaded [22] 1)) (faultedWith .unknownOpcode 0 22) = true := by decide
/-- V10. -/
theorem test_set : nextIs (step (loaded [1, 32768, 123] 10)) (fun t => t.readReg 0 == 123 && t.pc == 3) = true := by decide
/-- V14. -/
theorem test_set_invalid_target : nextIs (step (loaded [1, 32776, 1] 10))
    (fun t => faultedWith .invalidRegisterTarget 0 1 t && t.pc == 0) = true := by decide
/-- V16. -/
theorem test_push : nextIs (step (loaded [2, 5] 10))
    (fun t => t.stk == [(0, 5)] && t.sp == 1 && t.pc == 2) = true := by decide
/-- V18. -/
theorem test_push_full : nextIs (step { loaded [2, 0] 10 with sp := 32768 })
    (fun t => faultedWith .stackOverflow 0 2 t && t.sp == 32768) = true := by decide
/-- V19. -/
theorem test_pop : nextIs (step { loaded [3, 32772] 10 with stk := [(0, 42)], sp := 1 })
    (fun t => t.readReg 4 == 42 && t.sp == 0 && t.pc == 2) = true := by decide
/-- V21. -/
theorem test_pop_target_first : nextIs (step (loaded [3, 5] 10)) (faultedWith .invalidRegisterTarget 0 3) = true := by decide
/-- V32. -/
theorem test_eq : nextIs (step (loaded [4, 32769, 32769, 0] 10)) (fun t => t.readReg 1 == 1 && t.pc == 4) = true := by decide
/-- V33. -/
theorem test_gt_unsigned : nextIs (step (loaded [5, 32768, 32767, 0] 10)) (fun t => t.readReg 0 == 1) = true := by decide
/-- V34. -/
theorem test_gt_strict : nextIs (step { loaded [5, 32768, 5, 5] 10 with regs := Vector.replicate 8 7 })
    (fun t => t.readReg 0 == 0 && t.readReg 1 == 7) = true := by decide
/-- W4. -/
theorem test_jmp_past_end : nextIs (step (loaded [6, 100] 2))
    (fun t => faultedWith .programCounterOutOfBounds 0 6 t && t.pc == 100) = true := by decide
/-- V43. -/
theorem test_jt_taken : nextIs (step (loaded [7, 1, 7] 10)) (fun t => t.pc == 7 && t.status == .running) = true := by decide
/-- V45. -/
theorem test_jt_resolves_both : nextIs (step (loaded [7, 0, 40000] 10)) (faultedWith .invalidOperand 0 7) = true := by decide
/-- V46. -/
theorem test_jf_taken : nextIs (step (loaded [8, 32770, 9] 10)) (fun t => t.pc == 9) = true := by decide
/-- V47. -/
theorem test_jf_not_taken : nextIs (step { loaded [8, 32770, 9] 10 with regs := Vector.replicate 8 32767 })
    (fun t => t.pc == 3) = true := by decide
/-- V60. -/
theorem test_add_wraps : nextIs (step (loaded [9, 32768, 32767, 1] 10)) (fun t => t.readReg 0 == 0) = true := by decide
/-- V63. -/
theorem test_add_source_is_destination : nextIs
    (step { loaded [9, 32768, 32768, 32768] 10 with regs := Vector.replicate 8 20000 })
    (fun t => t.readReg 0 == 7232 && t.readReg 1 == 20000) = true := by decide
/-- V64. -/
theorem test_mult_wraps : nextIs (step (loaded [10, 32768, 32767, 32767] 10)) (fun t => t.readReg 0 == 1) = true := by decide
/-- V68. -/
theorem test_mod : nextIs (step (loaded [11, 32768, 17, 5] 10)) (fun t => t.readReg 0 == 2) = true := by decide
/-- V72. -/
theorem test_mod_zero : nextIs (step (loaded [11, 32768, 5, 0] 10))
    (fun t => faultedWith .divideByZero 0 11 t && t.readReg 0 == 0 && t.pc == 0) = true := by decide
/-- V74. -/
theorem test_and : nextIs (step (loaded [12, 32768, 12, 10] 10)) (fun t => t.readReg 0 == 8) = true := by decide
/-- V76. -/
theorem test_or : nextIs (step (loaded [13, 32768, 12, 10] 10)) (fun t => t.readReg 0 == 14) = true := by decide
/-- V80. -/
theorem test_not : nextIs (step (loaded [14, 32768, 21845] 10)) (fun t => t.readReg 0 == 10922 && t.pc == 3) = true := by decide
/-- V92. -/
theorem test_rmem_top : nextIs (step { loaded [15, 32768, 32767] 10 with mem := (loaded [15, 32768, 32767] 10).mem.writeCell 32767 9 })
    (fun t => t.readReg 0 == 9) = true := by decide
/-- V93. -/
theorem test_rmem_high_cell : nextIs (step (loaded [15, 32768, 1] 10)) (faultedWith .invalidMemoryValue 0 15) = true := by decide
/-- V94. -/
theorem test_wmem : nextIs (step (loaded [16, 200, 42] 10))
    (fun t => t.memRead 200 == 42 && t.pc == 3 && t.mem.wf) = true := by decide
/-- V51. -/
theorem test_call_past_end : nextIs (step (loaded [17, 9] 5))
    (fun t => faultedWith .programCounterOutOfBounds 0 17 t && t.stk == [(0, 2)] && t.sp == 1 && t.pc == 9) = true := by
  decide
/-- V52. -/
theorem test_ret : nextIs (step { loaded [18] 10 with stk := [(0, 7)], sp := 1 })
    (fun t => t.pc == 7 && t.sp == 0) = true := by decide
/-- V53. -/
theorem test_ret_empty : nextIs (step (loaded [18] 10)) (faultedWith .stackUnderflow 0 18) = true := by decide
/-- V101. -/
theorem test_out_low_byte : nextIs (step (loaded [19, 321] 10)) (fun t => t.output == [65] && t.pc == 2) = true := by decide
/-- V106. -/
theorem test_in_zero_extends : nextIs (step { loaded [20, 32768] 10 with input := [255] })
    (fun t => t.readReg 0 == 255 && t.inputPos == 1 && t.pc == 2) = true := by decide
/-- V107. -/
theorem test_in_waits : step { loaded [20, 32768] 10 with inputEnded := false } = .fault .waitingForHost := rfl
theorem test_out_waits : step { loaded [19, 65] 10 with sinkReady := false } = .fault .waitingForHost := rfl
theorem test_in_at_end : nextIs (step { loaded [20, 32768] 10 with inputEnded := true })
    (faultedWith .inputExhausted 0 20) = true := by decide
/-- V110, its second step. -/
theorem test_fetch_out_of_range : nextIs (step { loaded [6, 32765] 32768 with pc := 32765 })
    (fun t => faultedWith .fetchOutOfRange 32765 0 t && t.pc == 32765) = true := by decide
/-- V111. -/
theorem test_fetch_at_last_slot : nextIs (step { loaded [] 32768 with pc := 32764 })
    (fun t => t.status == .halted && t.pc == 32764) = true := by decide
/-- W1's image bytes, the first instruction placed from the table's numbering and run. -/
theorem test_placed_instruction : nextIs (step (State.reset.withFetchWord 64 0x0004800180000009))
    (fun t => t.readReg 0 == 4 && t.pc == 4 && t.status == .running) = true := by decide
/-- W1's image bytes. -/
theorem test_image_words : imageWords [0x09, 0x00, 0x00, 0x80, 0x01, 0x80, 0x04, 0x00] = some [9, 32768, 32769, 4] := by
  decide

/-! ### Witnesses: for every statement with hypotheses, states and operands that meet them, at the boundaries -/

/-- A checked outcome is a next state with what the check says. -/
theorem exists_next {o : Host.Outcome State Fault Refusal} {check : State → Bool} (h : nextIs o check = true) :
    ∃ t, o = .next t ∧ check t = true := by
  cases o with
  | next t => exact ⟨t, rfl, h⟩
  | fault r => cases h
  | refused r => cases h

/-- The reset state with program length `n`: an instruction of `n` words at 0 just fits. -/
def within (n : BitVec 16) : State := { State.reset with L := n }

/-- The last address with four slots, with program length `n`. -/
def atEdge (n : BitVec 16) : State := { State.reset with pc := 32764, L := n }

theorem literal_notRegister : NotRegister (.literal 32767) := by intro d h; cases h
theorem invalid_notRegister : NotRegister (.invalid 32776) := by intro d h; cases h
theorem within_ready (n : BitVec 16) : (within n).Ready := ⟨rfl, rfl⟩
theorem atEdge_ready (n : BitVec 16) : (atEdge n).Ready := ⟨rfl, rfl⟩
theorem loaded_ready (words : List Field) (n : BitVec 16) : (loaded words n).Ready := ⟨rfl, rfl⟩

theorem witness_DecodeOfEncode : Instr.wf (.add (.register 7) (.literal 32767) (.invalid 65535)) = true := by decide
theorem witness_EncodeOfDecode :
    decode 0 0 0 0 = .instr .halt ∧ decode 21 1 2 3 = .instr .noop := by decide
theorem witness_ClassesByRangeAndByBits :
    (32767 : Field).toNat ≤ 32767 ∧ (32768 : Field).toNat = 32768 + (0 : RegIdx).val ∧
    (32775 : Field).toNat = 32768 + (7 : RegIdx).val ∧ 32776 ≤ (32776 : Field).toNat ∧
    decode 21 0 0 0 = .instr .noop := by decide
theorem witness_IllegalOpcodesFault :
    (loaded [22] 1).Ready ∧ (loaded [22] 1).pc.toNat ≤ 32764 ∧ 22 ≤ ((loaded [22] 1).slot 0).toNat :=
  ⟨⟨rfl, rfl⟩, by decide, by decide⟩
theorem witness_ValueOfField :
    (32767 : Field).toNat ≤ 32767 ∧ (32775 : Field).toNat = 32768 + (7 : RegIdx).val ∧
    32776 ≤ (32776 : Field).toNat := by decide
theorem witness_DestinationOfField :
    (32768 : Field).toNat = 32768 + (0 : RegIdx).val ∧ (32767 : Field).toNat ≤ 32767 ∧
    32776 ≤ (32776 : Field).toNat := by decide
theorem witness_StepRunsDecodedInstruction :
    (atEdge 32768).Ready ∧ (atEdge 32768).pc.toNat ≤ 32764 ∧
    decode ((atEdge 32768).memRead (BitVec.ofNat 15 (atEdge 32768).pc.toNat))
      ((atEdge 32768).memRead (BitVec.ofNat 15 ((atEdge 32768).pc.toNat + 1)))
      ((atEdge 32768).memRead (BitVec.ofNat 15 ((atEdge 32768).pc.toNat + 2)))
      ((atEdge 32768).memRead (BitVec.ofNat 15 ((atEdge 32768).pc.toNat + 3))) = .instr .halt :=
  ⟨⟨rfl, rfl⟩, by decide, by decide⟩
theorem witness_PlacedInstructionRuns :
    (atEdge 32768).Ready ∧ (atEdge 32768).pc.toNat ≤ 32764 ∧ decodeTableWord 16 21 = some .noop :=
  ⟨⟨rfl, rfl⟩, by decide, by decide⟩
theorem witness_FetchOutOfRangeFaults :
    ({ within 32768 with pc := 32765 } : State).Ready ∧ 32764 < ({ within 32768 with pc := 32765 } : State).pc.toNat :=
  ⟨⟨rfl, rfl⟩, by decide⟩
theorem witness_StatusIsTerminal :
    (within 1).haltCore.resetAsserted = false ∧ (within 1).haltCore.status = .halted ∧
    ((within 1).enterFault .divideByZero 0 11).resetAsserted = false ∧
    ((within 1).enterFault .divideByZero 0 11).status = .faulted ∧
    ((within 1).status = .running ∧ ∃ t, exec .halt (within 1) = .next t) ∧
    ((within 1).Ready ∧ ∃ t, step (within 1) = .next t ∧ (t.status == .halted) = true) :=
  ⟨rfl, rfl, rfl, rfl, ⟨rfl, _, rfl⟩, within_ready 1, exists_next (by decide)⟩
theorem witness_FaultEntryIsPrecise :
    ((loaded [22] 1).Ready ∧ ∃ t, step (loaded [22] 1) = .next t ∧
      (t.status == .faulted && t.cause == .unknownOpcode) = true) ∧
    ((loaded [6, 100] 2).Ready ∧ ∃ t, step (loaded [6, 100] 2) = .next t ∧
      (t.status == .faulted && t.cause == .programCounterOutOfBounds) = true) :=
  ⟨⟨⟨rfl, rfl⟩, exists_next (by decide)⟩, ⟨rfl, rfl⟩, exists_next (by decide)⟩
/-- A ready state for each cause of R191. -/
theorem witness_CausesAndWhatRaisesThem :
    ∀ p ∈ [(loaded [22] 1, Cause.unknownOpcode), (loaded [19, 32776] 2, .invalidOperand),
        (loaded [1, 5, 1] 3, .invalidRegisterTarget), (loaded [18] 1, .stackUnderflow),
        ({ loaded [2, 0] 2 with sp := 32768 }, .stackOverflow), (loaded [6, 100] 2, .programCounterOutOfBounds),
        ({ loaded [] 32768 with pc := 32765 }, .fetchOutOfRange), (loaded [11, 32768, 5, 0] 4, .divideByZero),
        (loaded [15, 32768, 1] 3, .invalidMemoryValue),
        ({ loaded [20, 32768] 2 with inputEnded := true }, .inputExhausted)],
      p.1.Ready ∧ ∃ t, step p.1 = .next t ∧ (t.status == .faulted && t.cause == p.2) = true := by
  have key : ∀ s k, s.Ready → nextIs (step s) (fun t => t.status == .faulted && t.cause == k) = true →
      s.Ready ∧ ∃ t, step s = .next t ∧ (t.status == .faulted && t.cause == k) = true :=
    fun s k hr h => ⟨hr, exists_next h⟩
  simp only [List.forall_mem_cons]
  exact ⟨key _ _ ⟨rfl, rfl⟩ (by decide), key _ _ ⟨rfl, rfl⟩ (by decide), key _ _ ⟨rfl, rfl⟩ (by decide),
    key _ _ ⟨rfl, rfl⟩ (by decide), key _ _ ⟨rfl, rfl⟩ (by decide), key _ _ ⟨rfl, rfl⟩ (by decide),
    key _ _ ⟨rfl, rfl⟩ (by decide), key _ _ ⟨rfl, rfl⟩ (by decide), key _ _ ⟨rfl, rfl⟩ (by decide),
    key _ _ ⟨rfl, rfl⟩ (by decide), fun _ h => absurd h List.not_mem_nil⟩
theorem witness_BoundCheckAfterEveryInstruction :
    (Instr.noop ≠ .halt ∧ (within 1).status = .running ∧ (within 1).pc.toNat ≤ 32764 ∧
      (within 1).pc.toNat ≤ (within 1).L.toNat ∧ ∃ t, exec .noop (within 1) = .next t ∧ (t.status == .running) = true) ∧
    ((within 0).pc.toNat ≤ (within 0).L.toNat ∧
      ∃ t, exec .noop (within 0) = .next t ∧ decide (t.L.toNat < t.pc.toNat) = true) ∧
    (∃ t, exec .halt (within 0) = .next t) :=
  ⟨⟨by decide, rfl, by decide, by decide, exists_next (by decide)⟩, ⟨by decide, exists_next (by decide)⟩, _, rfl⟩
theorem witness_HaltRule :
    ((atEdge 32768).Ready ∧ (atEdge 32768).pc.toNat ≤ 32764 ∧ (atEdge 32768).slot 0 = 0) ∧
    ({ within 32768 with pc := 32765 } : State).Ready ∧ 32764 < ({ within 32768 with pc := 32765 } : State).pc.toNat :=
  ⟨⟨⟨rfl, rfl⟩, by decide, by decide⟩, ⟨rfl, rfl⟩, by decide⟩
theorem witness_NoopRule :
    (within 1).pc.toNat + 1 ≤ (within 1).L.toNat ∧
    ((atEdge 32764).pc.toNat ≤ 32764 ∧ (atEdge 32764).L.toNat < (atEdge 32764).pc.toNat + 1) ∧
    ((atEdge 32764).pc.toNat ≤ 32764 ∧ 4 ≤ 4) := by decide

/-- The hypotheses of a statement about an instruction with slots `d v v`: the widest literal and a register, a program
that just fits and one that is one word short. -/
def HypothesesDVV : Prop :=
  NotRegister (.literal 32767) ∧ NotRegister (.invalid 32776) ∧
  (val (within 4) (.literal 32767) = .ok 32767 ∧ val (within 4) (.register 7) = .ok 0 ∧
    (within 4).pc.toNat + 4 ≤ (within 4).L.toNat) ∧
  (val (atEdge 32767) (.literal 0) = .ok 0 ∧ val (atEdge 32767) (.literal 32767) = .ok 32767 ∧
    (atEdge 32767).pc.toNat ≤ 32764 ∧ (atEdge 32767).L.toNat < (atEdge 32767).pc.toNat + 4)

theorem hypothesesDVV : HypothesesDVV :=
  ⟨literal_notRegister, invalid_notRegister, ⟨rfl, rfl, by decide⟩, rfl, rfl, by decide, by decide⟩

/-- The same for slots `d v`. -/
def HypothesesDV : Prop :=
  NotRegister (.literal 32767) ∧ NotRegister (.invalid 32776) ∧
  (val (within 3) (.register 7) = .ok 0 ∧ (within 3).pc.toNat + 3 ≤ (within 3).L.toNat) ∧
  (val (atEdge 32766) (.literal 32767) = .ok 32767 ∧ (atEdge 32766).pc.toNat ≤ 32764 ∧
    (atEdge 32766).L.toNat < (atEdge 32766).pc.toNat + 3)

theorem hypothesesDV : HypothesesDV :=
  ⟨literal_notRegister, invalid_notRegister, ⟨rfl, by decide⟩, rfl, by decide, by decide⟩

theorem witness_EqRule : HypothesesDVV := hypothesesDVV
theorem witness_GtRule : HypothesesDVV := hypothesesDVV
theorem witness_AddRule : HypothesesDVV := hypothesesDVV
theorem witness_MultRule : HypothesesDVV := hypothesesDVV
theorem witness_AndRule : HypothesesDVV := hypothesesDVV
theorem witness_OrRule : HypothesesDVV := hypothesesDVV
theorem witness_ModRule : HypothesesDVV ∧ val (within 4) (.literal 0) = .ok 0 ∧ (32767 : Word) ≠ 0 :=
  ⟨hypothesesDVV, rfl, by decide⟩
theorem witness_SetRule : HypothesesDV := hypothesesDV
theorem witness_NotRule : HypothesesDV := hypothesesDV
theorem witness_RmemRule :
    HypothesesDV ∧ ((within 3).memRead 32767).toNat < 32768 ∧
    val (loaded [15, 32768, 1] 3) (.literal 1) = .ok 1 ∧ 32768 ≤ ((loaded [15, 32768, 1] 3).memRead 1).toNat :=
  ⟨hypothesesDV, by decide, rfl, by decide⟩
theorem witness_PushRule :
    val (within 2) (.literal 32767) = .ok 32767 ∧
    ({ within 2 with sp := 32768 } : State).sp.toNat = 32768 ∧
    (({ within 2 with sp := 32767 } : State).sp.toNat < 32768 ∧ (within 2).pc.toNat + 2 ≤ (within 2).L.toNat) ∧
    ((atEdge 32765).sp.toNat < 32768 ∧ (atEdge 32765).pc.toNat ≤ 32764 ∧
      (atEdge 32765).L.toNat < (atEdge 32765).pc.toNat + 2) := ⟨rfl, by decide⟩
theorem witness_PopRule :
    NotRegister (.literal 32767) ∧ (within 2).sp = 0 ∧
    (({ within 2 with sp := 1 } : State).sp ≠ 0 ∧ (within 2).pc.toNat + 2 ≤ (within 2).L.toNat) ∧
    (({ atEdge 32765 with sp := 32768 } : State).sp ≠ 0 ∧ (atEdge 32765).pc.toNat ≤ 32764 ∧
      (atEdge 32765).L.toNat < (atEdge 32765).pc.toNat + 2) := ⟨literal_notRegister, by decide⟩
theorem witness_JmpRule :
    val (within 32767) (.literal 32767) = .ok 32767 ∧ (32767 : Word).toNat ≤ (within 32767).L.toNat ∧
    (within 32766).L.toNat < (32767 : Word).toNat := ⟨rfl, by decide⟩
/-- The hypotheses of jt and jf: both conditions, targets at and above `L`, and the two ends of a fall-through. -/
def HypothesesBranch : Prop :=
  val (within 3) (.literal 1) = .ok 1 ∧ val (within 3) (.literal 0) = .ok 0 ∧ val (within 3) (.literal 3) = .ok 3 ∧
  val (within 3) (.literal 4) = .ok 4 ∧ (1 : Word) ≠ 0 ∧ (3 : Word).toNat ≤ (within 3).L.toNat ∧
  (within 3).L.toNat < (4 : Word).toNat ∧ (within 3).pc.toNat + 3 ≤ (within 3).L.toNat ∧
  (atEdge 32766).pc.toNat ≤ 32764 ∧ (atEdge 32766).L.toNat < (atEdge 32766).pc.toNat + 3
theorem hypothesesBranch : HypothesesBranch := ⟨rfl, rfl, rfl, rfl, by decide⟩
theorem witness_JtRule : HypothesesBranch := hypothesesBranch
theorem witness_JfRule : HypothesesBranch := hypothesesBranch
theorem witness_CallRule :
    val (atEdge 32767) (.literal 32767) = .ok 32767 ∧ ({ atEdge 32767 with sp := 32768 } : State).sp.toNat = 32768 ∧
    ({ atEdge 32767 with sp := 32767 } : State).sp.toNat < 32768 ∧ (atEdge 32767).pc.toNat ≤ 32764 ∧
    (32767 : Word).toNat ≤ (atEdge 32767).L.toNat ∧ (atEdge 32766).L.toNat < (32767 : Word).toNat := ⟨rfl, by decide⟩
theorem witness_RetRule :
    (within 7).sp = 0 ∧ ({ within 7 with stk := [(0, 7)], sp := 1 } : State).sp ≠ 0 ∧
    StackStore.read [(0, 7)] 0 = 7 ∧ (7 : Word).toNat ≤ (within 7).L.toNat ∧
    (within 6).L.toNat < (7 : Word).toNat := by decide
theorem witness_WmemRule :
    (val (within 3) (.literal 32767) = .ok 32767 ∧ (within 3).pc.toNat + 3 ≤ (within 3).L.toNat) ∧
    (val (atEdge 32766) (.register 7) = .ok 0 ∧ (atEdge 32766).pc.toNat ≤ 32764 ∧
      (atEdge 32766).L.toNat < (atEdge 32766).pc.toNat + 3) := ⟨⟨rfl, by decide⟩, rfl, by decide, by decide⟩
theorem witness_OutRule :
    (val (within 2) (.literal 321) = .ok 321 ∧ (within 2).sinkReady = true ∧
      (within 2).pc.toNat + 2 ≤ (within 2).L.toNat) ∧
    ((atEdge 32765).sinkReady = true ∧ (atEdge 32765).pc.toNat ≤ 32764 ∧
      (atEdge 32765).L.toNat < (atEdge 32765).pc.toNat + 2) ∧
    (setSinkReady false (within 2)).sinkReady = false := ⟨⟨rfl, by decide⟩, by decide⟩
/-- A host that has offered no byte and has not reported the end, and a program of two words. -/
def awaiting : State := { within 2 with inputEnded := false }
theorem witness_InRule :
    NotRegister (.invalid 32776) ∧
    ((endInput awaiting).input.length ≤ (endInput awaiting).inputPos ∧ (endInput awaiting).inputEnded = true) ∧
    ((deliverByte 255 awaiting).input[(deliverByte 255 awaiting).inputPos]? = some 255 ∧
      (deliverByte 255 awaiting).pc.toNat + 2 ≤ (deliverByte 255 awaiting).L.toNat) ∧
    (({ atEdge 32765 with input := [0] } : State).input[(atEdge 32765).inputPos]? = some 0 ∧
      (atEdge 32765).pc.toNat ≤ 32764 ∧ (atEdge 32765).L.toNat < (atEdge 32765).pc.toNat + 2) ∧
    (awaiting.input.length ≤ awaiting.inputPos ∧ awaiting.inputEnded = false) := ⟨invalid_notRegister, by decide⟩

/-! Frames: each instruction a frame names answers a next state, and stays RUNNING where it does not halt. -/

/-- A state in which every instruction completes: room on both ends of the stack, a byte of input, a short program. -/
def lively : State := { within 100 with stk := [(0, 7)], sp := 1, input := [104] }

/-- The instruction answers a next state from `lively` that has not faulted. -/
def runsLively (i : Instr) : Bool := nextIs (exec i lively) (fun t => t.status != .faulted)

theorem witness_RegisterOpsFrame :
    ∀ i ∈ [Instr.set (.register 0) (.literal 1), .eq (.register 1) (.literal 1) (.literal 1),
        .gt (.register 2) (.literal 2) (.literal 1), .add (.register 3) (.literal 1) (.literal 1),
        .mult (.register 4) (.literal 2) (.literal 2), .mod (.register 5) (.literal 3) (.literal 2),
        .and (.register 6) (.literal 3) (.literal 1), .or (.register 7) (.literal 1) (.literal 2),
        .not (.register 0) (.literal 0), .rmem (.register 1) (.literal 32767)], runsLively i = true := by decide
theorem witness_ControlOpsFrame :
    ∀ i ∈ [Instr.halt, .noop, .jmp (.literal 9), .jt (.literal 1) (.literal 9), .jf (.literal 1) (.literal 9)],
      runsLively i = true := by decide
theorem witness_StackOpsFrame :
    ∀ i ∈ [Instr.push (.literal 5), .call (.literal 9), .pop (.register 3), .ret], runsLively i = true := by decide
theorem witness_WmemFrame :
    runsLively (.wmem (.literal 200) (.literal 42)) = true ∧
    val lively (.literal 200) = .ok 200 ∧ (399 : Nat) ≠ 2 * (200 : Word).toNat ∧ (402 : Nat) ≠ 2 * (200 : Word).toNat + 1 ∧
    (201 : Word) ≠ 200 ∧ val lively (.invalid 32776) = .error .invalidOperand :=
  ⟨by decide, rfl, by decide, by decide, by decide, rfl⟩
theorem witness_HostIoFrame :
    runsLively (.out (.literal 65)) = true ∧ runsLively (.inp (.register 0)) = true := by decide

theorem witness_OnlyDestinationsAreWritten :
    (0 : RegIdx) ≠ 7 ∧
    (∃ t, exec (.set (.register 7) (.literal 1)) (within 3) = .next t ∧ (t.readReg 7 != (within 3).readReg 7) = true) ∧
    (loaded [22] 1).Ready ∧ (∃ t, step (loaded [22] 1) = .next t) ∧ (loaded [22] 1).fetch = .fault .unknownOpcode 22 :=
  ⟨by decide, exists_next (by decide), ⟨rfl, rfl⟩,
    (exists_next (check := fun _ => true) (o := step (loaded [22] 1)) (by decide)).imp fun _ h => h.1, by decide⟩
theorem witness_NoStepSetsBit15OfACell :
    ∃ t, step (loaded [21, 32768] 2) = .next t ∧ (t.memRead 1).getLsbD 15 = true := exists_next (by decide)
theorem witness_ReadReturnsLastWrite : (32766 : Word) ≠ 32767 ∧ State.reset.mem.wf = true := by decide
theorem witness_CanonicalMemoriesAreEqual :
    Memory.wf [(0, 1), (65535, 255)] = true ∧ Memory.wf (Memory.writeByte (Memory.writeByte [] 65535 255) 0 1) = true ∧
    Memory.wf [(1, 1), (0, 1)] = false ∧ Memory.wf [(0, 0)] = false ∧ Memory.wf [(65536, 1)] = false := by decide
theorem witness_StoresAreSeenByTheNextFetch :
    (loaded [16, 3, 21] 6).Ready ∧ (loaded [16, 3, 21] 6).fetch = .instr (.wmem (.literal 3) (.literal 21)) ∧
    val (loaded [16, 3, 21] 6) (.literal 3) = .ok 3 ∧ val (loaded [16, 3, 21] 6) (.literal 21) = .ok 21 ∧
    ∃ t, step (loaded [16, 3, 21] 6) = .next t ∧ (t.slot 0 == 21) = true :=
  ⟨⟨rfl, rfl⟩, by decide, rfl, rfl, exists_next (by decide)⟩
theorem witness_StackIsLastInFirstOut :
    ({ within 2 with sp := 32768 } : State).sp.toNat = 32768 ∧ (within 2).sp.toNat = 0 ∧
    ({ within 2 with sp := 32767 } : State).sp.toNat < 32768 ∧ ({ within 2 with sp := 1 } : State).sp.toNat ≠ 0 := by
  decide
theorem witness_RetAfterCallReturns :
    (within 2).pc.toNat ≤ 32764 ∧ (within 2).pc.toNat + 2 ≤ (within 2).L.toNat ∧ (within 2).sp.toNat < 32768 ∧
    (within 2).status = .running ∧ ∃ t, exec (.call (.literal 2)) (within 2) = .next t ∧ (t.status == .running) = true :=
  ⟨by decide, by decide, by decide, rfl, exists_next (by decide)⟩

/-- A launch with the given image, no input and an accepting sink. -/
def launchOf (image : Option (List Byte)) : Launch where
  image := image
  input := []
  inputEnded := true
  sinkReady := true

theorem witness_BootGivesResetState :
    (launchOf (some [0x15, 0x00])).image = some [0x15, 0x00] ∧ imageWords [0x15, 0x00] = some [21] ∧
    ([21] : List Field).length ≤ 32768 := by decide
theorem witness_ImageBytesAreLittleEndian : ([0x15] : List Byte).length % 2 = 1 ∧ ([0x15, 0x00] : List Byte).length % 2 = 0 := by
  decide
theorem witness_LoadErrorKeepsCoreInReset :
    (launchOf none).image = none ∧ ([0] : List Byte).length % 2 = 1 ∧ 65536 < (List.replicate 65538 (0 : Byte)).length :=
  ⟨rfl, by decide, by rw [List.length_replicate]; decide⟩
theorem witness_ResetRule : (within 1).haltCore.status ≠ .running := by decide
theorem witness_HostEndsAWait :
    (awaiting.inputPos = awaiting.input.length ∧ awaiting.inputEnded = false ∧
      awaiting.pc.toNat + 2 ≤ awaiting.L.toNat) ∧
    (val (setSinkReady false (within 2)) (.literal 65) = .ok 65 ∧ (setSinkReady false (within 2)).sinkReady = false) :=
  ⟨by decide, rfl, rfl⟩
theorem witness_EmptyImageHalts :
    (launchOf (some [])).image = some [] ∧ ∃ t, boot (launchOf (some [])) State.reset = (none, t) := ⟨rfl, _, rfl⟩

/-- A state with a live stack entry that satisfies the invariant, and steps. -/
theorem lively_inv : lively.Inv where
  memory := rfl
  storage := by decide
  depth := by decide
  live := by
    intro k h
    have h1 : k < 1 := h
    have h0 : k = 0 := by omega
    subst h0
    decide
  length := by decide
  pcRange := by decide
  pcBound := fun _ => by decide
  unfaulted := fun _ => ⟨rfl, rfl, rfl⟩
  faulted := fun h => by cases h
  position := by decide

theorem witness_StepKeepsInvariant : lively.Inv ∧ ∃ t, step lively = .next t ∧ (t.status == .halted) = true :=
  ⟨lively_inv, exists_next (by decide)⟩
theorem witness_ReachableStatesAreSafe :
    ∃ t, Reachable t ∧ t.status = .running :=
  ⟨_, .boot (launchOf (some [])) State.reset _ rfl, rfl⟩
theorem witness_InstructionsStopOnlyToAwaitHost :
    AwaitsHost (.inp (.register 0)) awaiting ∧ AwaitsHost (.out (.literal 65)) (setSinkReady false (within 2)) ∧
    ¬AwaitsHost .halt awaiting :=
  ⟨.inr ⟨0, rfl, by decide, rfl⟩, .inl ⟨.literal 65, 65, rfl, rfl, rfl⟩, by
    rintro (⟨a, v, h, -⟩ | ⟨d, h, -⟩) <;> cases h⟩
theorem witness_RunGoesExactlyOneOfFourWays :
    ∃ t, Reachable t ∧ t.resetAsserted = false ∧ t.status = .running :=
  ⟨_, .boot (launchOf (some [])) State.reset _ rfl, rfl, rfl⟩

end Sys2Proof.Tests
end

/-! ## Proofs: the machine state (`10_state.md`) -/

namespace Sys2Proof

/-- An instruction is at most four words wide (R71). -/
theorem Instr.width_le_four (i : Instr) : i.width ≤ 4 := by
  unfold Instr.width
  split <;> decide

end Sys2Proof

namespace Sys2Proof.Machine

/-! ### The call stack (R30) -/

/-- A pop right after a push gives the value pushed (R30). -/
theorem State.pop_pushEntry {s : State} (v : Word) (h : s.sp.toNat < 32768) :
    (s.pushEntry v).pop = .ok (v, (s.pushEntry v).popEntry) := by
  have hsp := s.pushEntry_sp_toNat v h
  have htop : (s.pushEntry v).top = v := by
    rw [State.top_eq _ (by omega), hsp, Nat.add_sub_cancel, State.pushEntry_stk, StackStore.read_put_same]
  exact pop_eq_ok.2 ⟨by omega, by rw [htop]⟩

/-- A push and a pop leave the depth as it was (R30). -/
theorem State.popEntry_pushEntry_sp (s : State) (v : Word) : (s.pushEntry v).popEntry.sp = s.sp := by
  rw [State.popEntry_sp, State.pushEntry_sp, BitVec.add_sub_cancel]

/-- Settles O48, by the outcomes of `push` and `pop` and the laws of the stack's storage. -/
theorem stackIsLastInFirstOut : Obligations.StackIsLastInFirstOut := by
  refine ⟨fun s v h => push_eq_error.2 ⟨h, rfl⟩, fun s h => pop_eq_error.2 ⟨h, rfl⟩, fun s v h => ?_, fun s h => ?_⟩
  · have hkept : ∀ k, k < s.sp.toNat →
        StackStore.read (s.pushEntry v).popEntry.stk k = StackStore.read s.stk k := fun k hk => by
      rw [State.popEntry_stk, State.pushEntry_stk, StackStore.read_put_ne _ (by omega)]
    exact ⟨s.pushEntry v, push_eq_ok.2 ⟨by omega, rfl⟩, s.pushEntry_sp_toNat v h, StackStore.read_put_same _ _ _,
      _, State.pop_pushEntry v h, s.popEntry_pushEntry_sp v, hkept⟩
  · exact ⟨s.popEntry, pop_eq_ok.2 ⟨h, by rw [State.top_eq s h]⟩, s.popEntry_sp_toNat h, rfl⟩

/-! ### The register file (R22) -/

/-- What a commit does to the register file: nothing, or one write to the register the destination slot names (R22). -/
theorem Commits.regs_cases {i : Instr} {s u : State} (h : Commits i s u) :
    u.regs = s.regs ∨ ∃ d v, i.destination = some (.register d) ∧ u.regs = (s.writeReg d v).regs := by
  cases h with
  | noop | push | jmp | wmem | call | ret | out => exact .inl rfl
  | jt | jf => left; split <;> rfl
  | _ => exact .inr ⟨_, _, rfl, rfl⟩

/-- The same for an instruction as a whole, fault entry included (R22, R203). -/
theorem exec_regs_cases {i : Instr} {s t : State} (h : exec i s = .next t) :
    t.regs = s.regs ∨ ∃ d v, i.destination = some (.register d) ∧ t.regs = (s.writeReg d v).regs := by
  by_cases hi : i = .halt
  · subst hi
    cases h
    exact .inl rfl
  · rcases exec_outcomes hi h with ⟨u, hu, ⟨-, rfl⟩ | ⟨-, rfl⟩⟩ | ⟨k, -, rfl⟩
    · exact hu.regs_cases
    · exact hu.regs_cases
    · exact .inl rfl

/-- An instruction that changes a register has it in its destination slot (R22). -/
theorem exec_destination_of_readReg_ne {i : Instr} {s t : State} {j : RegIdx} (h : exec i s = .next t)
    (hj : t.readReg j ≠ s.readReg j) : i.destination = some (.register j) := by
  rcases exec_regs_cases h with hr | ⟨d, v, hd, hr⟩
  · exact absurd (State.readReg_congr hr j) hj
  · rw [State.readReg_congr hr, State.readReg_writeReg] at hj
    by_cases hdj : d = j
    · exact hdj ▸ hd
    · exact absurd (if_neg hdj) hj

/-- Settles O43: the only register write of an instruction is the one its commit makes to the destination. -/
theorem onlyDestinationsAreWritten : Obligations.OnlyDestinationsAreWritten := by
  refine ⟨val_register, fun s d v => ⟨by simp, fun j hj => by simp [hj.symm]⟩,
    fun s t i j => exec_destination_of_readReg_ne, fun s t _ h hf => ?_⟩
  obtain ⟨-, ⟨i, -, hi, -⟩ | ⟨k, op, -, rfl⟩⟩ := step_cases h
  · exact absurd hi (hf i)
  · exact fun j => State.readReg_enterFault ..

/-! ### The program counter and the bound check (R24 to R26) -/

/-- A commit leaves `pc` at the next instruction or at a 15-bit target (R25, R135). -/
theorem Commits.pc_cases {i : Instr} {s u : State} (h : Commits i s u) :
    u.pc = (s.advance i.width).pc ∨ ∃ a : Word, u.pc = (s.jump a).pc := by
  cases h with
  | jmp | call | ret => exact .inr ⟨_, rfl⟩
  | jt | jf =>
    split
    · exact .inr ⟨_, rfl⟩
    · exact .inl rfl
  | _ => exact .inl rfl

/-- After stage 1 a commit leaves `pc` in its range: it never wraps (R24, R25). -/
theorem Commits.pc_le {i : Instr} {s u : State} (h : Commits i s u) (hpc : s.pc.toNat ≤ 32764) :
    u.pc.toNat ≤ 32768 := by
  rcases h.pc_cases with e | ⟨a, e⟩
  · have hw := i.width_le_four
    rw [e, State.advance_pc_toNat _ _ (by omega)]
    omega
  · rw [e, State.jump_pc_toNat]
    omega

/-- No instruction reads `L` before it retires, so it commits the same for every program length (R26, R31). -/
theorem Commits.withLength {i : Instr} {s u : State} (h : Commits i s u) (n : BitVec 16) :
    Commits i { s with L := n } { u with L := n } := by
  cases h with
  | jt _ a b v t hv ht =>
    convert Commits.jt { s with L := n } a b v t hv ht using 1
    split <;> rfl
  | jf _ a b v t hv ht =>
    convert Commits.jf { s with L := n } a b v t hv ht using 1
    split <;> rfl
  | _ => constructor <;> assumption

/-- A commit is all the writes of its step: with the bound check out of the way the same state is the next one, and
fault entry changes only the status and the fault record (R26, R203). -/
theorem Commits.commitsAllWrites {i : Instr} {s u : State} (h : Commits i s u) (k : Cause) (p : BitVec 16)
    (op : Field) : CommitsAllWrites i s (u.enterFault k p op) := by
  obtain ⟨hst, hca, hfp, hfo, -⟩ := h.keeps
  obtain ⟨-, he⟩ := exec_of_commits (h.withLength 65535)
  have hle : u.pc.toNat ≤ 65535 := by omega
  rw [CommitsAllWrites, he, State.boundCheck_of_le hle, ← hst, ← hca, ← hfp, ← hfo]
  rfl

/-- Settles O15, by the ends of an instruction: a commit within `L`, a commit beyond it, or a precise fault. -/
theorem boundCheckAfterEveryInstruction : Obligations.BoundCheckAfterEveryInstruction := by
  refine ⟨fun i s t hi _ hpc hL h => ?_, fun s t h => ?_⟩
  · rcases exec_outcomes hi h with ⟨u, hu, ⟨hle, rfl⟩ | ⟨-, rfl⟩⟩ | ⟨k, -, rfl⟩
    · exact ⟨fun _ => hle, fun hlt => absurd hle (by omega), hu.pc_le hpc⟩
    · exact ⟨nofun, fun _ => ⟨rfl, rfl, hu.commitsAllWrites _ _ _⟩, hu.pc_le hpc⟩
    · exact ⟨nofun, fun hlt => absurd hL (Nat.not_le.2 hlt), hpc.trans (by decide)⟩
  · cases h
    exact ⟨rfl, rfl⟩

/-! ### Boot (R38, R65, R222) -/

/-- The loader writes an image to a memory that holds 0 everywhere (R65, R222). -/
theorem Memory.readCell_image (ws : List Field) (j : Nat) :
    (Memory.writeWords [] 0 ws).readCell j = ws.getD j 0 := by
  rw [Memory.readCell_writeWords]
  by_cases hj : j < ws.length
  · rw [if_pos (by omega), Nat.sub_zero]
  · rw [if_neg (by omega), Memory.readCell_nil, List.getD_eq_default _ _ (by omega)]

/-- A boot of an image that fits the Address Space (R222). -/
theorem boot_of_image {l : Launch} {bytes : List Byte} {ws : List Field} (hi : l.image = some bytes)
    (hw : imageWords bytes = some ws) (hl : ws.length ≤ 32768) (s : State) :
    boot l s = (none, releaseReset (connectHost l
      { assertReset s with mem := Memory.writeWords [] 0 ws, L := BitVec.ofNat 16 ws.length })) := by
  simp [boot, load, hi, hw, Nat.not_lt.2 hl]

/-- After a release of reset every register holds 0 (R38). -/
@[simp] theorem readReg_releaseReset (s : State) (i : RegIdx) : (releaseReset s).readReg i = 0 :=
  Vector.getElem_replicate _

/-- Settles O50: what `boot_of_image` leaves, field by field. -/
theorem bootGivesResetState : Obligations.BootGivesResetState := by
  intro l s bytes ws hi hw hl
  have hL : (BitVec.ofNat 16 ws.length).toNat = ws.length := by
    rw [BitVec.toNat_ofNat, Nat.mod_eq_of_lt (by omega)]
  exact ⟨_, boot_of_image hi hw hl s, readReg_releaseReset _, rfl, rfl, rfl, rfl, rfl, rfl, hL, rfl,
    fun addr => Memory.readCell_image ws addr.toNat, rfl, rfl, rfl, rfl, rfl⟩

end Sys2Proof.Machine

/-! ## Proofs: the Address Space (`20_memory.md`) -/

namespace Sys2Proof.Machine

/-! ### What a program can store (R66) -/

/-- What a commit does to memory: nothing, or the one write of wmem, a Word zero-extended to its cell (R171). -/
theorem Commits.mem_cases {i : Instr} {s u : State} (h : Commits i s u) :
    u.mem = s.mem ∨ ∃ a b addr v, i = .wmem a b ∧ val s a = .ok addr ∧ val s b = .ok v ∧
      u.mem = (s.memWrite addr (v.setWidth 16)).mem := by
  cases h with
  | wmem _ a b addr v ha hb => exact .inr ⟨a, b, addr, v, rfl, ha, hb, rfl⟩
  | jt | jf => left; split <;> rfl
  | _ => exact .inl rfl

/-- The same for an instruction as a whole, fault entry included (R171, R203). -/
theorem exec_mem_cases {i : Instr} {s t : State} (h : exec i s = .next t) :
    t.mem = s.mem ∨ ∃ a b addr v, i = .wmem a b ∧ val s a = .ok addr ∧ val s b = .ok v ∧
      t.mem = (s.memWrite addr (v.setWidth 16)).mem := by
  by_cases hi : i = .halt
  · subst hi
    cases h
    exact .inl rfl
  · rcases exec_outcomes hi h with ⟨u, hu, ⟨-, rfl⟩ | ⟨-, rfl⟩⟩ | ⟨k, -, rfl⟩
    · exact hu.mem_cases
    · exact hu.mem_cases
    · exact .inl rfl

/-- What a step does to memory: nothing, or one write of a zero-extended Word (R86, R171). -/
theorem step_mem_cases {s t : State} (h : step s = .next t) :
    t.mem = s.mem ∨ ∃ addr v : Word, t.mem = (s.memWrite addr (v.setWidth 16)).mem := by
  obtain ⟨-, ⟨i, -, -, he⟩ | ⟨k, op, -, rfl⟩⟩ := step_cases h
  · rcases exec_mem_cases he with hm | ⟨a, b, addr, v, -, -, -, hm⟩
    · exact .inl hm
    · exact .inr ⟨addr, v, hm⟩
  · exact .inl rfl

/-- A Word zero-extended to a cell has bit 15 clear (R66, R171). -/
theorem getLsbD_fifteen_setWidth (v : Word) : (v.setWidth 16 : Field).getLsbD 15 = false := by
  rw [BitVec.getLsbD_setWidth, BitVec.getLsbD_of_ge v 15 le_rfl, Bool.and_false]

/-- Settles O44: a step writes at most one cell, and what it writes there has bit 15 clear. -/
theorem noStepSetsBit15OfACell : Obligations.NoStepSetsBit15OfACell := by
  intro s t addr h hbit
  rcases step_mem_cases h with hm | ⟨addr', v, hm⟩
  · exact State.memRead_congr hm addr
  · rw [State.memRead_congr hm, State.memRead_memWrite] at hbit ⊢
    by_cases ha : addr = addr'
    · rw [if_pos ha, getLsbD_fifteen_setWidth] at hbit
      cases hbit
    · exact if_neg ha

end Sys2Proof.Machine

/-! ## Proofs: the encoding and the step (`30_encoding.md`) -/

namespace Sys2Proof

/-! ### The classes of a field (R73) -/

/-- The literals are the fields up to 32767 (R73). -/
theorem classify_literal_iff (f : Field) : (∃ w, classify f = .literal w) ↔ f.toNat ≤ 32767 := by
  rcases field_cases f with h | ⟨i, h⟩ | h
  · exact iff_of_true ⟨_, classify_of_le h⟩ h
  · exact iff_of_false (by simp [classify_of_register h]) (by omega)
  · exact iff_of_false (by simp [classify_of_ge h]) (by omega)

/-- The register references are the fields 32768 to 32775 (R73). -/
theorem classify_register_iff (f : Field) :
    (∃ i, classify f = .register i) ↔ 32768 ≤ f.toNat ∧ f.toNat ≤ 32775 := by
  rcases field_cases f with h | ⟨i, h⟩ | h
  · exact iff_of_false (by simp [classify_of_le h]) (by omega)
  · exact iff_of_true ⟨i, classify_of_register h⟩ (by omega)
  · exact iff_of_false (by simp [classify_of_ge h]) (by omega)

/-- The invalid fields are those from 32776 up (R73). -/
theorem classify_invalid_iff (f : Field) : (∃ g, classify f = .invalid g) ↔ 32776 ≤ f.toNat := by
  rcases field_cases f with h | ⟨i, h⟩ | h
  · exact iff_of_false (by simp [classify_of_le h]) (by omega)
  · exact iff_of_false (by simp [classify_of_register h]) (by omega)
  · exact iff_of_true ⟨f, classify_of_ge h⟩ h

/-! ### Bits of a field as ranges (R73, R80) -/

/-- Bit 15 of a field is set from 32768 up. -/
theorem getLsbD_fifteen (f : Field) : f.getLsbD 15 = decide (32768 ≤ f.toNat) :=
  BitVec.msb_eq_decide f

/-- The `n` bits of a field from bit `k` up are zero, as arithmetic on the field's number. -/
theorem extractLsb'_eq_zero_iff (f : Field) (k n : Nat) :
    f.extractLsb' k n = 0 ↔ f.toNat / 2 ^ k % 2 ^ n = 0 := by
  rw [← BitVec.toNat_inj, BitVec.extractLsb'_toNat, Nat.shiftRight_eq_div_pow]
  rfl

/-- Bit 15 set with bits 14 to 3 zero is the range 32768 to 32775 (R73). -/
theorem registerBits_iff (f : Field) :
    f.getLsbD 15 = true ∧ f.extractLsb' 3 12 = 0 ↔ 32768 ≤ f.toNat ∧ f.toNat ≤ 32775 := by
  rw [getLsbD_fifteen, decide_eq_true_iff, extractLsb'_eq_zero_iff]
  omega

/-- Bit 15 set with bits 14 to 3 not all zero is the range from 32776 up (R73). -/
theorem invalidBits_iff (f : Field) :
    f.getLsbD 15 = true ∧ f.extractLsb' 3 12 ≠ 0 ↔ 32776 ≤ f.toNat := by
  rw [getLsbD_fifteen, decide_eq_true_iff, Ne, extractLsb'_eq_zero_iff]
  omega

/-- The low three bits of a register reference are the register's number (R73). -/
theorem registerNumber_of_field {f : Field} {i : RegIdx} (h : f.toNat = 32768 + i.val) :
    i.val = (f.extractLsb' 0 3).toNat := by
  rw [BitVec.extractLsb'_toNat, Nat.shiftRight_zero]
  omega

/-- The validity equation of an opcode word is the range up to 21 (R80). -/
theorem validOpcodeBits_iff (op : Field) :
    op.extractLsb' 5 11 = 0 ∧ (op.extractLsb' 0 5).toNat ≤ 21 ↔ op.toNat ≤ 21 := by
  rw [extractLsb'_eq_zero_iff, BitVec.extractLsb'_toNat, Nat.shiftRight_zero]
  omega

/-- The low five bits of a valid opcode word are its number (R80). -/
theorem toNat_extractLsb'_opcode {op : Field} (h : op.toNat ≤ 21) : (op.extractLsb' 0 5).toNat = op.toNat := by
  rw [BitVec.extractLsb'_toNat, Nat.shiftRight_zero]
  omega

/-! ### The decoder (R78, R79) -/

/-- What the decoder answers: for an opcode word up to 21 an instruction of that opcode, and from 22 up a rejection
(R78, R79). -/
theorem decode_cases (op a b c : Field) :
    (op.toNat ≤ 21 ∧ ∃ i, decode op a b c = .instr i ∧ i.opcode = op) ∨
    (22 ≤ op.toNat ∧ decode op a b c = .unknownOpcode op) := by
  unfold decode
  split
  case h_23 => -- the word is none of the 22 numbers of the map
    refine .inr ⟨?_, rfl⟩
    simp only [imp_false] at *
    omega
  all_goals
    rename_i hop
    exact .inl ⟨by omega, _, rfl, BitVec.eq_of_toNat_eq hop.symm⟩

/-- The decoder accepts exactly the opcode words up to 21 (R79). -/
theorem exists_decode_iff (op a b c : Field) : (∃ i, decode op a b c = .instr i) ↔ op.toNat ≤ 21 := by
  rcases decode_cases op a b c with ⟨hop, i, hi, -⟩ | ⟨hop, hu⟩
  · exact iff_of_true ⟨i, hi⟩ hop
  · exact iff_of_false (by simp [hu]) (by omega)

/-- The decoder rejects exactly the opcode words from 22 up (R79). -/
theorem decode_eq_unknownOpcode_iff (op a b c : Field) : decode op a b c = .unknownOpcode op ↔ 22 ≤ op.toNat := by
  rcases decode_cases op a b c with ⟨hop, i, hi, -⟩ | ⟨hop, hu⟩
  · exact iff_of_false (by simp [hi]) (by omega)
  · exact iff_of_true hu hop

/-- A decoded instruction has the opcode word it was read from, which is one of the map (R78). -/
theorem opcode_of_decode {op a b c : Field} {i : Instr} (h : decode op a b c = .instr i) :
    i.opcode = op ∧ op.toNat ≤ 21 := by
  rcases decode_cases op a b c with ⟨hop, j, hj, ho⟩ | ⟨-, hu⟩
  · cases hj.symm.trans h
    exact ⟨ho, hop⟩
  · cases hu.symm.trans h

/-- Settles O4: each class and each validity condition, by bits and by range, is one range of the word's number. -/
theorem classesByRangeAndByBits : Obligations.ClassesByRangeAndByBits := by
  refine ⟨fun f h => ?_, fun f i h => ⟨classify_of_register h, registerNumber_of_field h⟩, fun f => classify_of_ge,
    fun f => ?_, fun f => ?_, fun f => ?_, fun op a b c => ?_, fun op a b c i h => ?_⟩
  · rw [classify_of_le h, BitVec.setWidth_eq_extractLsb' (by decide)]
  · rw [classify_literal_iff, getLsbD_fifteen, decide_eq_false_iff_not]
    omega
  · rw [classify_register_iff, registerBits_iff]
  · rw [classify_invalid_iff, invalidBits_iff]
  · rw [exists_decode_iff, validOpcodeBits_iff]
  · obtain ⟨ho, hop⟩ := opcode_of_decode h
    rw [ho, toNat_extractLsb'_opcode hop]

end Sys2Proof

namespace Sys2Proof.Machine

/-! ### Destination slots (R75) -/

/-- Settles O7, class by class. -/
theorem destinationOfField : Obligations.DestinationOfField := by
  refine ⟨fun f i h => ?_, fun f h => ?_⟩
  · rw [classify_of_register h, dst_register]
  · rcases h with h | h
    · rw [classify_of_le h, dst_literal]
    · rw [classify_of_ge h, dst_invalid]

/-! ### The faults of stages 1 and 2 (R81, R82) -/

/-- Above 32764 stage 1 faults with no word fetched (R81, R35). -/
theorem fetch_of_gt {s : State} (h : 32764 < s.pc.toNat) : s.fetch = .fault .fetchOutOfRange 0 := by
  rcases fetch_cases s with ⟨-, hf⟩ | ⟨hle, -⟩
  · exact hf
  · exact absurd h (Nat.not_lt.2 hle)

/-- Stage 2 faults on an opcode word from 22 up and hands on the word (R79, R82). -/
theorem fetch_of_illegal_opcode {s : State} (hpc : s.pc.toNat ≤ 32764) (hop : 22 ≤ (s.slot 0).toNat) :
    s.fetch = .fault .unknownOpcode (s.slot 0) := by
  have hd := (decode_eq_unknownOpcode_iff (s.slot 0) (s.slot 1) (s.slot 2) (s.slot 3)).2 hop
  rcases fetch_cases s with ⟨hgt, -⟩ | ⟨-, ⟨i, hi, -⟩ | ⟨op, hu, hf⟩⟩
  · exact absurd hgt (Nat.not_lt.2 hpc)
  · cases hd.symm.trans hi
  · cases hd.symm.trans hu
    exact hf

/-- A fault of stage 1 or 2 is the whole step: fault entry at `pc` with the word handed on (R86, R203). -/
theorem step_of_fetch_fault {s : State} {k : Cause} {op : Field} (hs : s.Ready) (hf : s.fetch = .fault k op) :
    step s = .next (s.enterFault k s.pc op) := by
  simp only [step, State.stopped_eq_none.2 hs, hf]

/-- Settles O10, by the fault of stage 1. -/
theorem fetchOutOfRangeFaults : Obligations.FetchOutOfRangeFaults :=
  fun _ hs hpc => step_of_fetch_fault hs (fetch_of_gt hpc)

/-- Settles O5, by the decoder's rejection and the fault of stage 2. -/
theorem illegalOpcodesFault : Obligations.IllegalOpcodesFault :=
  ⟨decode_eq_unknownOpcode_iff, fun _ hs hpc hop => step_of_fetch_fault hs (fetch_of_illegal_opcode hpc hop)⟩

end Sys2Proof.Machine

/-! ## Proofs: machine control (`40_machine_control.md`) -/

namespace Sys2Proof

/-- The opcode word 0 is halt, whatever the other slots hold (R77, R78). -/
@[simp] theorem decode_zero (a b c : Field) : decode 0 a b c = .instr .halt := rfl

end Sys2Proof

namespace Sys2Proof.Machine

/-! ### A step that runs its instruction (R82, R86) -/

/-- Stages 1 and 2 fetch the instruction that the four slots decode to (R81, R82). -/
theorem fetch_of_decode {s : State} {i : Instr} (hpc : s.pc.toNat ≤ 32764)
    (hd : decode (s.slot 0) (s.slot 1) (s.slot 2) (s.slot 3) = .instr i) : s.fetch = .instr i := by
  rcases fetch_cases s with ⟨hgt, -⟩ | ⟨-, ⟨j, hj, hf⟩ | ⟨op, hu, -⟩⟩
  · exact absurd hgt (Nat.not_lt.2 hpc)
  · cases hd.symm.trans hj
    exact hf
  · cases hd.symm.trans hu

/-- The step of a fetched instruction is the instruction's own meaning (R86). -/
theorem step_of_fetch_instr {s : State} {i : Instr} (hs : s.Ready) (hf : s.fetch = .instr i) :
    step s = exec i s := by
  simp only [step, State.stopped_eq_none.2 hs, hf]

/-! ### halt (R100) -/

/-- halt enters HALTED, with no bound check (R84, R100). -/
theorem exec_halt (s : State) : exec .halt s = .next s.haltCore := rfl

/-- The word 0 in the first slot is fetched as halt (R78, R82). -/
theorem fetch_of_halt {s : State} (hpc : s.pc.toNat ≤ 32764) (h0 : s.slot 0 = 0) : s.fetch = .instr .halt :=
  fetch_of_decode hpc (by rw [h0, decode_zero])

/-- Settles O16: the word 0 is fetched as halt and its step is `haltCore`; above 32764 stage 1 faults (O10). -/
theorem haltRule : Obligations.HaltRule :=
  ⟨rfl, exec_halt, fun s hs hpc h0 => (step_of_fetch_instr hs (fetch_of_halt hpc h0)).trans (exec_halt s),
    fetchOutOfRangeFaults⟩

/-! ### noop (R101) -/

/-- noop commits its sequential update alone (R25, R101). -/
theorem exec_noop (s : State) : exec .noop s = complete 21 s (.commit (s.advance 1)) := rfl

/-- The sequential update writes `pc` and nothing else (R25). -/
theorem State.advance_with_pc (s : State) (n : Nat) : { s.advance n with pc := s.pc } = s := rfl

/-- Settles O17, by the two ends of a sequential instruction: within `L` and beyond it. -/
theorem noopRule : Obligations.NoopRule := by
  refine ⟨rfl, fun s n hpc hn => ⟨s.advance_pc_toNat n (by omega), s.advance_with_pc n⟩, fun s h => ?_,
    fun s hpc h => ?_⟩
  · rw [exec_noop, complete_advance_of_le rfl rfl h]
  · rw [Overruns, exec_noop, complete_advance_of_lt rfl rfl hpc (by decide) h, Instr.opcode]

end Sys2Proof.Machine

/-! ## Proofs: set, push and pop (`41_register_and_stack.md`) -/

namespace Sys2Proof.Machine

/-! ### The two ends of a sequential instruction (R25, R26) -/

section
variable {i : Instr} {s t : State} {n : Nat}

/-- An instruction that commits with a sequential update and stays within `L` has that state as its next (R25, R26). -/
theorem exec_of_commits_advance (h : Commits i s (t.advance n)) (hpc : t.pc = s.pc)
    (hle : s.pc.toNat + n ≤ s.L.toNat) : exec i s = .next (t.advance n) := by
  obtain ⟨-, -, -, -, hL, -⟩ := h.keeps
  exact (exec_of_commits h).2.trans (complete_advance_of_le hpc hL hle)

/-- One that runs over `L` commits and then faults on the bound check (R25, R26). -/
theorem overruns_of_commits_advance (h : Commits i s (t.advance n)) (hpc : t.pc = s.pc) (hn : n ≤ 4)
    (hp : s.pc.toNat ≤ 32764) (hlt : s.L.toNat < s.pc.toNat + n) : Overruns i s (t.advance n) := by
  obtain ⟨-, -, -, -, hL, -⟩ := h.keeps
  exact (exec_of_commits h).2.trans (complete_advance_of_lt hpc hL hp hn hlt)

end

/-! ### The slot faults of pattern `d v` (R76, R83) -/

/-- Pattern `d v` faults on a destination that is no register reference (R75). -/
theorem unaryToReg_of_notRegister {op : Field} {f : Word → Except Cause Word} {a b : Operand} {s : State}
    (h : NotRegister a) : unaryToReg op f a b s = .next (s.enterFault .invalidRegisterTarget s.pc op) := by
  rw [unaryToReg, dst_of_not_register h, resolve_error, complete_raise]

/-- Past its destination, pattern `d v` faults on an invalid value slot (R74, R83). -/
theorem unaryToReg_invalid {op : Field} {f : Word → Except Cause Word} {d : RegIdx} {g : Field} {s : State} :
    unaryToReg op f (.register d) (.invalid g) s = .next (s.enterFault .invalidOperand s.pc op) := by
  rw [unaryToReg, dst_register, resolve_ok, val_invalid, resolve_error, complete_raise]

/-- Encoding and slot faults of every instruction whose meaning is pattern `d v` (R76, R83). -/
theorem slotsDV_of_unaryToReg {n : Field} {mk : Operand → Operand → Instr} {f : State → Word → Except Cause Word}
    (henc : ∀ a b, encode (mk a b) = [n, a.field, b.field])
    (hexec : ∀ a b s, exec (mk a b) s = unaryToReg n (f s) a b s) : SlotsDV n mk := by
  have hop : ∀ a b, (mk a b).opcode = n := fun a b => List.head_eq_of_cons_eq (henc a b)
  refine ⟨henc, fun s a b ha => ?_, fun s d g => ?_⟩
  · rw [FaultsWith, hexec, hop, unaryToReg_of_notRegister ha]
  · rw [FaultsWith, hexec, hop, unaryToReg_invalid]

/-! ### set (R110) -/

/-- Settles O18, by the slot faults of pattern `d v`, the two ends of a commit and the register file's law. -/
theorem setRule : Obligations.SetRule := by
  refine ⟨slotsDV_of_unaryToReg (fun _ _ => rfl) (fun _ _ _ => rfl), fun s d b vb hb hle => ?_,
    fun s d b vb hb hp hlt => overruns_of_commits_advance (.set s d b vb hb) rfl (by decide) hp hlt⟩
  have hread : ((s.writeReg d vb).advance 3).readReg d = vb := by
    rw [State.readReg_advance, State.readReg_writeReg, if_pos rfl]
  exact ⟨_, exec_of_commits_advance (.set s d b vb hb) rfl hle, rfl, hread, by rw [val_register, hread]⟩

/-! ### push (R111) -/

/-- What push does: its value slot, then the push, then the sequential update (R111). -/
theorem exec_push (a : Operand) (s : State) :
    exec (.push a) s = complete 2 s (resolve (val s a) fun v => resolve (s.push v) fun t => .commit (t.advance 2)) :=
  rfl

/-- The slot of push is resolved before the stack is looked at (R83, R111). -/
theorem push_invalid_faults (s : State) (f : Field) : FaultsWith (.push (.invalid f)) s .invalidOperand := by
  rw [FaultsWith, exec_push, val_invalid, resolve_error, complete_raise, Instr.opcode]

/-- push on a full stack overflows (R111, R195). -/
theorem push_full_faults {s : State} {a : Operand} {v : Word} (ha : val s a = .ok v) (hs : s.sp.toNat = 32768) :
    FaultsWith (.push a) s .stackOverflow := by
  rw [FaultsWith, exec_push, ha, resolve_ok, push_eq_error.2 ⟨hs, rfl⟩, resolve_error, complete_raise, Instr.opcode]

/-- The value pushed is on top (R30). -/
theorem State.top_pushEntry {s : State} (v : Word) (h : s.sp.toNat < 32768) : (s.pushEntry v).top = v := by
  obtain ⟨-, heq⟩ := pop_eq_ok.1 (State.pop_pushEntry v h)
  exact (congrArg Prod.fst heq).symm

/-- Settles O19, by the faults of push, the two ends of its commit and the laws of the stack. -/
theorem pushRule : Obligations.PushRule := by
  refine ⟨⟨fun _ => rfl, push_invalid_faults⟩, fun s a v ha hs => push_full_faults ha hs,
    fun s a v ha hs hle => ?_, fun s a v ha hs hp hlt => ?_⟩
  · exact ⟨exec_of_commits_advance (.push s a v ha hs.ne) rfl hle, State.top_pushEntry v hs,
      s.pushEntry_sp_toNat v hs⟩
  · exact overruns_of_commits_advance (.push s a v ha hs.ne) rfl (by decide) hp hlt

/-! ### pop (R112) -/

/-- What pop does: its destination, then the pop, then the register write and the sequential update (R112). -/
theorem exec_pop (a : Operand) (s : State) :
    exec (.pop a) s =
      complete 3 s (resolve (dst a) fun d => resolve s.pop fun p => .commit ((p.2.writeReg d p.1).advance 2)) :=
  rfl

/-- The destination of pop is checked before the stack is touched (R112). -/
theorem pop_notRegister_faults {s : State} {a : Operand} (ha : NotRegister a) :
    FaultsWith (.pop a) s .invalidRegisterTarget := by
  rw [FaultsWith, exec_pop, dst_of_not_register ha, resolve_error, complete_raise, Instr.opcode]

/-- pop on an empty stack underflows (R112, R195). -/
theorem pop_empty_faults {s : State} {d : RegIdx} (hs : s.sp.toNat = 0) :
    FaultsWith (.pop (.register d)) s .stackUnderflow := by
  rw [FaultsWith, exec_pop, dst_register, resolve_ok, pop_eq_error.2 ⟨hs, rfl⟩, resolve_error, complete_raise,
    Instr.opcode]

/-- What pop commits on a stack that is not empty, with the top entry by its index (R30, R112). -/
theorem Commits.pop_lastEntry {s : State} {d : RegIdx} (hs : s.sp ≠ 0) :
    Commits (.pop (.register d)) s
      ((s.popEntry.writeReg d (StackStore.read s.stk (s.sp.toNat - 1))).advance 2) := by
  have hne : s.sp.toNat ≠ 0 := BitVec.toNat_ne_iff_ne.2 hs
  rw [← State.top_eq s hne]
  exact .pop s d hne

/-- Settles O20, by the faults of pop and the two ends of its commit. -/
theorem popRule : Obligations.PopRule := by
  refine ⟨⟨fun _ => rfl, fun s a ha => pop_notRegister_faults ha⟩, fun s d hs => ?_, fun s d hs hle => ?_,
    fun s d hs hp hlt => ?_⟩
  · exact pop_empty_faults (by rw [hs]; rfl)
  · exact exec_of_commits_advance (.pop_lastEntry hs) rfl hle
  · exact overruns_of_commits_advance (.pop_lastEntry hs) rfl (by decide) hp hlt

end Sys2Proof.Machine

/-! ## Proofs: eq and gt (`42_compare.md`) -/

namespace Sys2Proof.Machine

/-! ### The slot faults of pattern `d v v` (R76, R83) -/

section
variable {op g : Field} {f : Word → Word → Except Cause Word} {a b c : Operand} {d : RegIdx} {v : Word} {s : State}

/-- Pattern `d v v` faults on a destination that is no register reference (R75). -/
theorem binaryToReg_of_notRegister (h : NotRegister a) :
    binaryToReg op f a b c s = .next (s.enterFault .invalidRegisterTarget s.pc op) := by
  rw [binaryToReg, dst_of_not_register h, resolve_error, complete_raise]

/-- Past its destination, pattern `d v v` faults on an invalid first value slot, whatever the second holds (R74, R83). -/
theorem binaryToReg_invalid_first :
    binaryToReg op f (.register d) (.invalid g) c s = .next (s.enterFault .invalidOperand s.pc op) := by
  rw [binaryToReg, dst_register, resolve_ok, val_invalid, resolve_error, complete_raise]

/-- Past its first value, pattern `d v v` faults on an invalid second value slot (R74, R83). -/
theorem binaryToReg_invalid_second (hb : val s b = .ok v) :
    binaryToReg op f (.register d) b (.invalid g) s = .next (s.enterFault .invalidOperand s.pc op) := by
  rw [binaryToReg, dst_register, resolve_ok, hb, resolve_ok, val_invalid, resolve_error, complete_raise]

end

/-- Encoding and slot faults of every instruction whose meaning is pattern `d v v` (R76, R83). -/
theorem slotsDVV_of_binaryToReg {n : Field} {mk : Operand → Operand → Operand → Instr}
    {f : Word → Word → Except Cause Word} (henc : ∀ a b c, encode (mk a b c) = [n, a.field, b.field, c.field])
    (hexec : ∀ a b c s, exec (mk a b c) s = binaryToReg n f a b c s) : SlotsDVV n mk := by
  have hop : ∀ a b c, (mk a b c).opcode = n := fun a b c => List.head_eq_of_cons_eq (henc a b c)
  refine ⟨henc, fun s a b c ha => ?_, fun s d g c => ?_, fun s d b vb g hb => ?_⟩
  · rw [FaultsWith, hexec, hop, binaryToReg_of_notRegister ha]
  · rw [FaultsWith, hexec, hop, binaryToReg_invalid_first]
  · rw [FaultsWith, hexec, hop, binaryToReg_invalid_second hb]

/-- The two ends of an instruction with slots `d v v` that commits `f` of its values: within `L` the committed state is
the next one, and beyond `L` the bound check faults after the writes (R25, R26). -/
theorem binary_ends_of_commits {mk : Operand → Operand → Operand → Instr} {f : Word → Word → Word}
    (hcommit : ∀ s d b c v w, val s b = .ok v → val s c = .ok w →
      Commits (mk (.register d) b c) s ((s.writeReg d (f v w)).advance 4)) :
    (∀ (s : State) d b c v w, val s b = .ok v → val s c = .ok w → s.pc.toNat + 4 ≤ s.L.toNat →
      exec (mk (.register d) b c) s = .next ((s.writeReg d (f v w)).advance 4)) ∧
    (∀ (s : State) d b c v w, val s b = .ok v → val s c = .ok w → s.pc.toNat ≤ 32764 → s.L.toNat < s.pc.toNat + 4 →
      Overruns (mk (.register d) b c) s ((s.writeReg d (f v w)).advance 4)) := by
  refine ⟨fun s d b c v w hb hc hle => ?_, fun s d b c v w hb hc hp hlt => ?_⟩
  · exact exec_of_commits_advance (hcommit s d b c v w hb hc) rfl hle
  · exact overruns_of_commits_advance (hcommit s d b c v w hb hc) rfl (by decide) hp hlt

/-! ### eq (R120) and gt (R121) -/

/-- Settles O21, by the slot faults of pattern `d v v` and the two ends of the commit of `eqResult`. -/
theorem eqRule : Obligations.EqRule :=
  ⟨slotsDVV_of_binaryToReg (fun _ _ _ => rfl) (fun _ _ _ _ => rfl), binary_ends_of_commits (f := eqResult) .eq⟩

/-- Settles O22, by the slot faults of pattern `d v v` and the two ends of the commit of `gtResult`. -/
theorem gtRule : Obligations.GtRule :=
  ⟨slotsDVV_of_binaryToReg (fun _ _ _ => rfl) (fun _ _ _ _ => rfl), binary_ends_of_commits (f := gtResult) .gt⟩

end Sys2Proof.Machine

/-! ## Proofs: jmp, jt, jf, call and ret (`43_control_transfer.md`) -/

namespace Sys2Proof.Machine

/-! ### The two ends of a jump (R26, R135) -/

section
variable {i : Instr} {s t : State} {a : Word}

/-- An instruction that commits with a jump within `L` has that state as its next (R26, R135). -/
theorem exec_of_commits_jump (h : Commits i s (t.jump a)) (hle : a.toNat ≤ s.L.toNat) :
    exec i s = .next (t.jump a) := by
  obtain ⟨-, -, -, -, hL, -⟩ := h.keeps
  exact (exec_of_commits h).2.trans (complete_jump_of_le hL hle)

/-- One that jumps beyond `L` commits and then faults on the bound check (R26, R135). -/
theorem overruns_of_commits_jump (h : Commits i s (t.jump a)) (hlt : s.L.toNat < a.toNat) :
    Overruns i s (t.jump a) := by
  obtain ⟨-, -, -, -, hL, -⟩ := h.keeps
  exact (exec_of_commits h).2.trans (complete_jump_of_lt hL hlt)

end

/-! ### The slot faults of patterns `v` and `v v` (R76, R83) -/

/-- Encoding and slot faults of every instruction that resolves one value slot before anything else (R76, R83). -/
theorem slotsV_of_resolve {n : Field} {mk : Operand → Instr} {k : State → Word → Effect}
    (henc : ∀ a, encode (mk a) = [n, a.field])
    (hexec : ∀ a s, exec (mk a) s = complete n s (resolve (val s a) (k s))) : SlotsV n mk := by
  have hop : ∀ a, (mk a).opcode = n := fun a => List.head_eq_of_cons_eq (henc a)
  refine ⟨henc, fun s f => ?_⟩
  rw [FaultsWith, hexec, hop, val_invalid, resolve_error, complete_raise]

/-- Encoding and slot faults of every instruction that resolves two value slots, the first of them first, before
anything else (R76, R83). -/
theorem slotsVV_of_resolve {n : Field} {mk : Operand → Operand → Instr} {k : State → Word → Word → Effect}
    (henc : ∀ a b, encode (mk a b) = [n, a.field, b.field])
    (hexec : ∀ a b s, exec (mk a b) s = complete n s (resolve (val s a) fun v => resolve (val s b) (k s v))) :
    SlotsVV n mk := by
  have hop : ∀ a b, (mk a b).opcode = n := fun a b => List.head_eq_of_cons_eq (henc a b)
  refine ⟨henc, fun s f b => ?_, fun s a v f ha => ?_⟩
  · rw [FaultsWith, hexec, hop, val_invalid, resolve_error, complete_raise]
  · rw [FaultsWith, hexec, hop, ha, resolve_ok, val_invalid, resolve_error, complete_raise]

/-! ### jmp (R130) -/

/-- What jmp does: its value slot, then the jump (R130). -/
theorem exec_jmp (a : Operand) (s : State) :
    exec (.jmp a) s = complete 6 s (resolve (val s a) fun t => .commit (s.jump t)) := rfl

/-- Settles O23, by the slot fault of pattern `v` and the two ends of a jump. -/
theorem jmpRule : Obligations.JmpRule :=
  ⟨slotsV_of_resolve (fun _ => rfl) exec_jmp,
    fun s a t ha hle => exec_of_commits_jump (.jmp s a t ha) hle,
    fun s a t ha hlt => overruns_of_commits_jump (.jmp s a t ha) hlt⟩

/-! ### jt (R131) and jf (R132) -/

/-- What a conditional jump does: both value slots, taken or not, then the jump or the sequential update (R83). -/
theorem branchIf_eq (op : Field) (taken : Word → Bool) (a b : Operand) (s : State) :
    branchIf op taken a b s =
      complete op s (resolve (val s a) fun v => resolve (val s b) fun t =>
        .commit (if taken v then s.jump t else s.advance 3)) := rfl

/-- The condition of jt is that the value is not zero (R131). -/
theorem isNonzero_iff {v : Word} : isNonzero v = true ↔ v ≠ 0 := bne_iff_ne

section
variable {s : State} {a b : Operand} {v t : Word}

/-- jt commits the jump on a value that is not zero (R131). -/
theorem Commits.jt_taken (ha : val s a = .ok v) (hb : val s b = .ok t) (hv : v ≠ 0) :
    Commits (.jt a b) s (s.jump t) := by
  simpa only [isNonzero_iff.2 hv, if_true] using Commits.jt s a b v t ha hb

/-- jt commits the sequential update on zero (R131). -/
theorem Commits.jt_fallThrough (ha : val s a = .ok 0) (hb : val s b = .ok t) :
    Commits (.jt a b) s (s.advance 3) :=
  .jt s a b 0 t ha hb

/-- jf commits the jump on zero (R132). -/
theorem Commits.jf_taken (ha : val s a = .ok 0) (hb : val s b = .ok t) : Commits (.jf a b) s (s.jump t) :=
  .jf s a b 0 t ha hb

/-- jf commits the sequential update on a value that is not zero (R132). -/
theorem Commits.jf_fallThrough (ha : val s a = .ok v) (hb : val s b = .ok t) (hv : v ≠ 0) :
    Commits (.jf a b) s (s.advance 3) := by
  simpa [isNonzero_iff.2 hv] using Commits.jf s a b v t ha hb

end

/-- Settles O24, by the slot faults of pattern `v v` and the two ends of each of the two commits of jt. -/
theorem jtRule : Obligations.JtRule :=
  ⟨slotsVV_of_resolve (fun _ _ => rfl) (branchIf_eq 7 _),
    fun _ _ _ _ _ ha hb hv hle => exec_of_commits_jump (.jt_taken ha hb hv) hle,
    fun _ _ _ _ _ ha hb hv hlt => overruns_of_commits_jump (.jt_taken ha hb hv) hlt,
    fun _ _ _ _ ha hb hle => exec_of_commits_advance (.jt_fallThrough ha hb) rfl hle,
    fun _ _ _ _ ha hb hp hlt => overruns_of_commits_advance (.jt_fallThrough ha hb) rfl (by decide) hp hlt⟩

/-- Settles O25, by the slot faults of pattern `v v` and the two ends of each of the two commits of jf. -/
theorem jfRule : Obligations.JfRule :=
  ⟨slotsVV_of_resolve (fun _ _ => rfl) (branchIf_eq 8 _),
    fun _ _ _ _ ha hb hle => exec_of_commits_jump (.jf_taken ha hb) hle,
    fun _ _ _ _ ha hb hlt => overruns_of_commits_jump (.jf_taken ha hb) hlt,
    fun _ _ _ _ _ ha hb hv hle => exec_of_commits_advance (.jf_fallThrough ha hb hv) rfl hle,
    fun _ _ _ _ _ ha hb hv hp hlt =>
      overruns_of_commits_advance (.jf_fallThrough ha hb hv) rfl (by decide) hp hlt⟩

/-! ### call (R133) -/

/-- What call does: its value slot, then the push of the return address, then the jump (R133). -/
theorem exec_call (a : Operand) (s : State) :
    exec (.call a) s = complete 17 s
      (resolve (val s a) fun t => resolve (s.push (returnAddress s)) fun u => .commit (u.jump t)) := rfl

/-- After stage 1 the return address fits in a stack entry (R81, R133). -/
theorem returnAddress_toNat {s : State} (hp : s.pc.toNat ≤ 32764) : (returnAddress s).toNat = s.pc.toNat + 2 := by
  rw [returnAddress, BitVec.toNat_ofNat, Nat.mod_eq_of_lt (by omega)]

/-- call on a full stack overflows (R133, R195). -/
theorem call_full_faults {s : State} {a : Operand} {t : Word} (ha : val s a = .ok t) (hs : s.sp.toNat = 32768) :
    FaultsWith (.call a) s .stackOverflow := by
  rw [FaultsWith, exec_call, ha, resolve_ok, push_eq_error.2 ⟨hs, rfl⟩, resolve_error, complete_raise, Instr.opcode]

/-- Settles O26, by the faults of call, the two ends of its jump and the return address on top of the stack. -/
theorem callRule : Obligations.CallRule := by
  refine ⟨slotsV_of_resolve (fun _ => rfl) exec_call, fun s a t ha hs => call_full_faults ha hs,
    fun s a t ha hs hp hle => ?_, fun s a t ha hs _ hlt => overruns_of_commits_jump (.call s a t ha hs.ne) hlt⟩
  have htop : ((s.pushEntry (returnAddress s)).jump t).top = returnAddress s := State.top_pushEntry _ hs
  exact ⟨_, exec_of_commits_jump (.call s a t ha hs.ne) hle, rfl, by rw [htop, returnAddress_toNat hp],
    s.pushEntry_sp_toNat (returnAddress s) hs⟩

/-! ### ret (R134) -/

/-- What ret does: the pop, then the jump to the entry popped (R134). -/
theorem exec_ret (s : State) : exec .ret s = complete 18 s (resolve s.pop fun p => .commit (p.2.jump p.1)) := rfl

/-- ret on an empty stack underflows (R134, R195). -/
theorem ret_empty_faults {s : State} (hs : s.sp.toNat = 0) : FaultsWith .ret s .stackUnderflow := by
  rw [FaultsWith, exec_ret, pop_eq_error.2 ⟨hs, rfl⟩, resolve_error, complete_raise, Instr.opcode]

/-- What ret commits on a stack that is not empty, with the top entry by its index (R30, R134). -/
theorem Commits.ret_lastEntry {s : State} (hs : s.sp ≠ 0) :
    Commits .ret s (s.popEntry.jump (StackStore.read s.stk (s.sp.toNat - 1))) := by
  have hne : s.sp.toNat ≠ 0 := BitVec.toNat_ne_iff_ne.2 hs
  rw [← State.top_eq s hne]
  exact .ret s hne

/-- Settles O27, by the fault of ret and the two ends of its jump to the top entry. -/
theorem retRule : Obligations.RetRule := by
  refine ⟨rfl, fun s hs => ret_empty_faults (by rw [hs]; rfl), ?_, ?_⟩
  · rintro s _ hs rfl hle
    exact exec_of_commits_jump (.ret_lastEntry hs) hle
  · rintro s _ hs rfl hlt
    exact overruns_of_commits_jump (.ret_lastEntry hs) hlt

end Sys2Proof.Machine

/-! ## Proofs: add, mult, mod, and, or and not (`44_alu.md`) -/

namespace Sys2Proof.Machine

/-! ### The results as numbers (R150) -/

/-- The result of add is the sum modulo 32768 (R151). -/
theorem aluAdd_toNat (v w : Word) : (aluAdd v w).toNat = (v.toNat + w.toNat) % 32768 :=
  BitVec.toNat_ofNat _ 15

/-- The result of mult is the exact product modulo 32768 (R152). -/
theorem aluMult_toNat (v w : Word) : (aluMult v w).toNat = v.toNat * w.toNat % 32768 :=
  BitVec.toNat_ofNat _ 15

/-- A zero divisor has no remainder (R153, R198). -/
theorem aluMod_zero (v : Word) : aluMod v 0 = .error .divideByZero := if_pos rfl

/-- By any other divisor the result of mod is the remainder, which is no wider than the dividend (R153). -/
theorem exists_aluMod_of_ne_zero (v : Word) {w : Word} (hw : w ≠ 0) :
    ∃ r, aluMod v w = .ok r ∧ r.toNat = v.toNat % w.toNat := by
  rcases aluMod_cases v w with ⟨h0, -⟩ | ⟨-, hok⟩
  · exact absurd h0 hw
  · have hlt : v.toNat % w.toNat < 2 ^ 15 := (Nat.mod_le _ _).trans_lt v.isLt
    exact ⟨_, hok, by rw [BitVec.toNat_ofNat, Nat.mod_eq_of_lt hlt]⟩

/-- The 15-bit complement of a value is 32767 less it (R156). -/
theorem aluNot_toNat (v : Word) : (aluNot v).toNat = 32767 - v.toNat := BitVec.toNat_not

/-! ### A fault of the operation itself (R83, R84) -/

/-- Past its slots, pattern `d v v` faults where its operation raises a cause. -/
theorem binaryToReg_raise {op : Field} {f : Word → Word → Except Cause Word} {b c : Operand} {d : RegIdx} {v w : Word}
    {k : Cause} {s : State} (hb : val s b = .ok v) (hc : val s c = .ok w) (hf : f v w = .error k) :
    binaryToReg op f (.register d) b c s = .next (s.enterFault k s.pc op) := by
  rw [binaryToReg, dst_register, resolve_ok, hb, resolve_ok, hc, resolve_ok, hf, resolve_error, complete_raise]

/-! ### add (R151), mult (R152), and (R154) and or (R155) -/

/-- The two ends of an instruction with slots `d v v` (R25, R26), where its result is known by a property `P`. -/
theorem binary_ends_of_commits_of_result {mk : Operand → Operand → Operand → Instr} {f : Word → Word → Word}
    {P : Word → Word → Word → Prop} (hresult : ∀ v w, P v w (f v w))
    (hcommit : ∀ s d b c v w, val s b = .ok v → val s c = .ok w →
      Commits (mk (.register d) b c) s ((s.writeReg d (f v w)).advance 4)) :
    (∀ (s : State) d b c v w, val s b = .ok v → val s c = .ok w → s.pc.toNat + 4 ≤ s.L.toNat →
      ∃ r, P v w r ∧ exec (mk (.register d) b c) s = .next ((s.writeReg d r).advance 4)) ∧
    (∀ (s : State) d b c v w, val s b = .ok v → val s c = .ok w → s.pc.toNat ≤ 32764 → s.L.toNat < s.pc.toNat + 4 →
      ∃ r, P v w r ∧ Overruns (mk (.register d) b c) s ((s.writeReg d r).advance 4)) := by
  obtain ⟨hwithin, hbeyond⟩ := binary_ends_of_commits hcommit
  exact ⟨fun s d b c v w hb hc hle => ⟨_, hresult v w, hwithin s d b c v w hb hc hle⟩,
    fun s d b c v w hb hc hp hlt => ⟨_, hresult v w, hbeyond s d b c v w hb hc hp hlt⟩⟩

/-- Settles O28, by the slot faults of pattern `d v v` and the two ends of the commit of `aluAdd`. -/
theorem addRule : Obligations.AddRule :=
  ⟨slotsDVV_of_binaryToReg (fun _ _ _ => rfl) (fun _ _ _ _ => rfl),
    binary_ends_of_commits_of_result aluAdd_toNat .add⟩

/-- Settles O29, by the slot faults of pattern `d v v` and the two ends of the commit of `aluMult`. -/
theorem multRule : Obligations.MultRule :=
  ⟨slotsDVV_of_binaryToReg (fun _ _ _ => rfl) (fun _ _ _ _ => rfl),
    binary_ends_of_commits_of_result aluMult_toNat .mult⟩

/-- Settles O31, by the slot faults of pattern `d v v` and the two ends of the commit of `aluAnd`. -/
theorem andRule : Obligations.AndRule :=
  ⟨slotsDVV_of_binaryToReg (fun _ _ _ => rfl) (fun _ _ _ _ => rfl), binary_ends_of_commits (f := aluAnd) .and⟩

/-- Settles O32, by the slot faults of pattern `d v v` and the two ends of the commit of `aluOr`. -/
theorem orRule : Obligations.OrRule :=
  ⟨slotsDVV_of_binaryToReg (fun _ _ _ => rfl) (fun _ _ _ _ => rfl), binary_ends_of_commits (f := aluOr) .or⟩

/-! ### mod (R153) -/

/-- What mod does: pattern `d v v` with the remainder (R153). -/
theorem exec_mod (a b c : Operand) (s : State) : exec (.mod a b c) s = binaryToReg 11 aluMod a b c s := rfl

/-- With its slots resolved, mod faults on a zero divisor (R153, R198). -/
theorem mod_zero_faults {s : State} {d : RegIdx} {b c : Operand} {v : Word} (hb : val s b = .ok v)
    (hc : val s c = .ok 0) : FaultsWith (.mod (.register d) b c) s .divideByZero := by
  rw [FaultsWith, exec_mod, binaryToReg_raise hb hc (aluMod_zero v), Instr.opcode]

/-- Settles O30, by the slot faults of pattern `d v v`, the zero divisor, and the two ends of the remainder's commit. -/
theorem modRule : Obligations.ModRule := by
  refine ⟨slotsDVV_of_binaryToReg (fun _ _ _ => rfl) exec_mod, fun s d b c v hb hc => mod_zero_faults hb hc,
    fun s d b c v w hb hc hw hle => ?_, fun s d b c v w hb hc hw hp hlt => ?_⟩
  all_goals obtain ⟨r, hok, hr⟩ := exists_aluMod_of_ne_zero v hw
  · exact ⟨r, hr, exec_of_commits_advance (.mod s d b c v w r hb hc hok) rfl hle⟩
  · exact ⟨r, hr, overruns_of_commits_advance (.mod s d b c v w r hb hc hok) rfl (by decide) hp hlt⟩

/-! ### not (R156) -/

/-- Settles O33, by the slot faults of pattern `d v` and the two ends of the commit of `aluNot`. -/
theorem notRule : Obligations.NotRule :=
  ⟨slotsDV_of_unaryToReg (fun _ _ => rfl) (fun _ _ _ => rfl),
    fun s d b v hb hle => ⟨_, rfl, aluNot_toNat v, exec_of_commits_advance (.not s d b v hb) rfl hle⟩,
    fun s d b v hb hp hlt => overruns_of_commits_advance (.not s d b v hb) rfl (by decide) hp hlt⟩

end Sys2Proof.Machine

/-! ## Proofs: rmem and wmem (`45_memory_access.md`) -/

namespace Sys2Proof.Machine

/-! ### The two ranges of a cell (R170, R199) -/

/-- A cell of 32768 or more has bit 15 set and holds no Word (R199). -/
theorem loadWord_of_ge {s : State} {addr : Word} (h : 32768 ≤ (s.memRead addr).toNat) :
    loadWord s addr = .error .invalidMemoryValue := by
  rcases loadWord_cases s addr with ⟨-, herr⟩ | ⟨hbit, -⟩
  · exact herr
  · rw [getLsbD_fifteen, decide_eq_false_iff_not] at hbit
    exact absurd h hbit

/-- A cell below 32768 holds the Word of the same number (R170). -/
theorem exists_loadWord_of_lt {s : State} {addr : Word} (h : (s.memRead addr).toNat < 32768) :
    ∃ r, loadWord s addr = .ok r ∧ r.toNat = (s.memRead addr).toNat := by
  rcases loadWord_cases s addr with ⟨hbit, -⟩ | ⟨-, hok⟩
  · rw [getLsbD_fifteen, decide_eq_true_eq] at hbit
    exact absurd hbit (Nat.not_le.2 h)
  · exact ⟨_, hok, by rw [BitVec.toNat_setWidth, Nat.mod_eq_of_lt h]⟩

/-! ### rmem (R170) -/

/-- Past its slots, pattern `d v` faults where its operation raises a cause (R83, R84). -/
theorem unaryToReg_raise {op : Field} {f : Word → Except Cause Word} {b : Operand} {d : RegIdx} {v : Word}
    {k : Cause} {s : State} (hb : val s b = .ok v) (hf : f v = .error k) :
    unaryToReg op f (.register d) b s = .next (s.enterFault k s.pc op) := by
  rw [unaryToReg, dst_register, resolve_ok, hb, resolve_ok, hf, resolve_error, complete_raise]

/-- What rmem does: pattern `d v` with the load from the address the value slot gives (R170). -/
theorem exec_rmem (a b : Operand) (s : State) : exec (.rmem a b) s = unaryToReg 15 (loadWord s) a b s := rfl

/-- With its slots resolved, rmem faults on a cell that holds no Word (R170, R199). -/
theorem rmem_high_cell_faults {s : State} {d : RegIdx} {b : Operand} {addr : Word} (hb : val s b = .ok addr)
    (hcell : 32768 ≤ (s.memRead addr).toNat) : FaultsWith (.rmem (.register d) b) s .invalidMemoryValue := by
  rw [FaultsWith, exec_rmem, unaryToReg_raise hb (loadWord_of_ge hcell), Instr.opcode]

/-- Settles O34, by the slot faults of pattern `d v`, the cell with bit 15 set, and the two ends of the load's commit. -/
theorem rmemRule : Obligations.RmemRule := by
  refine ⟨slotsDV_of_unaryToReg (fun _ _ => rfl) exec_rmem, fun s d b addr hb hcell => rmem_high_cell_faults hb hcell,
    fun s d b addr hb hcell hle => ?_, fun s d b addr hb hcell hp hlt => ?_⟩
  all_goals obtain ⟨r, hok, hr⟩ := exists_loadWord_of_lt hcell
  · exact ⟨r, hr, exec_of_commits_advance (.rmem s d b addr r hb hok) rfl hle⟩
  · exact ⟨r, hr, overruns_of_commits_advance (.rmem s d b addr r hb hok) rfl (by decide) hp hlt⟩

/-! ### wmem (R171) -/

/-- What wmem does: both value slots, then the store and the sequential update (R171). -/
theorem exec_wmem (a b : Operand) (s : State) :
    exec (.wmem a b) s = complete 16 s (resolve (val s a) fun addr => resolve (val s b) fun v =>
      .commit ((s.memWrite addr (v.setWidth 16)).advance 3)) := rfl

/-- Settles O35, by the slot faults of pattern `v v`, the two ends of the store's commit and the read-after-write law
of memory. -/
theorem wmemRule : Obligations.WmemRule := by
  refine ⟨slotsVV_of_resolve (fun _ _ => rfl) exec_wmem, fun s a b addr v ha hb hle => ?_,
    fun s a b addr v ha hb hp hlt => overruns_of_commits_advance (.wmem s a b addr v ha hb) rfl (by decide) hp hlt⟩
  have hread : ((s.memWrite addr (v.setWidth 16)).advance 3).memRead addr = v.setWidth 16 := by
    rw [State.memRead_congr (State.advance_mem ..), State.memRead_memWrite, if_pos rfl]
  exact ⟨_, exec_of_commits_advance (.wmem s a b addr v ha hb) rfl hle, rfl, hread,
    by rw [hread, getLsbD_fifteen_setWidth], rfl⟩

end Sys2Proof.Machine

/-! ## Proofs: exceptions (`60_exceptions.md`) -/

namespace Sys2Proof.Machine

/-! ### The faults of stages 1 and 2 (R81, R82) -/

/-- A fetched instruction has the opcode word of the first slot, which is the word fault entry records (R35, R82). -/
theorem opcode_of_fetch {s : State} {i : Instr} (hf : s.fetch = .instr i) : i.opcode = s.slot 0 := by
  rcases fetch_cases s with ⟨-, hf'⟩ | ⟨-, ⟨j, hd, hf'⟩ | ⟨op, -, hf'⟩⟩ <;> cases hf'.symm.trans hf
  exact (opcode_of_decode hd).1

/-- The two faults of stages 1 and 2, with the words they record (R35, R81, R82). -/
theorem fetch_fault_cases {s : State} {k : Cause} {op : Field} (hf : s.fetch = .fault k op) :
    (32764 < s.pc.toNat ∧ k = .fetchOutOfRange ∧ op = 0) ∨
    (s.pc.toNat ≤ 32764 ∧ 22 ≤ (s.slot 0).toNat ∧ k = .unknownOpcode ∧ op = s.slot 0) := by
  rcases Nat.lt_or_ge 32764 s.pc.toNat with hpc | hpc
  · cases (fetch_of_gt hpc).symm.trans hf
    exact .inl ⟨hpc, rfl, rfl⟩
  · rcases Nat.lt_or_ge (s.slot 0).toNat 22 with hop | hop
    · obtain ⟨i, hi⟩ := (exists_decode_iff (s.slot 0) (s.slot 1) (s.slot 2) (s.slot 3)).2 (Nat.le_of_lt_succ hop)
      cases (fetch_of_decode hpc hi).symm.trans hf
    · cases (fetch_of_illegal_opcode hpc hop).symm.trans hf
      exact .inr ⟨hpc, hop, rfl, rfl⟩

/-! ### The faults of stages 3 and 4 and the bound check (R83, R84, R26) -/

/-- Stages 3 and 4 raise neither the fault of stage 1 nor that of the bound check (R201). -/
theorem Raises.not_fetch_nor_bound {i : Instr} {s : State} {k : Cause} (h : Raises i s k) :
    k ≠ .fetchOutOfRange ∧ k ≠ .programCounterOutOfBounds := by
  cases h <;> decide

/-- The end of the stream is at the input port (R181). -/
theorem State.inByte_eq_eof {s : State} :
    s.inByte = .eof ↔ s.input.length ≤ s.inputPos ∧ s.inputEnded = true := by
  unfold State.inByte
  split
  next hb => simp [(List.getElem?_eq_some_iff.1 hb).1]
  next hb => simp [List.getElem?_eq_none_iff.1 hb]

/-- An instruction that leaves a RUNNING machine FAULTED raised a fault of stage 3 or 4, or committed a `pc` above `L`
(R26, R84, R85). -/
theorem exec_faulted_cases {i : Instr} {s t : State} (hs : s.status = .running) (h : exec i s = .next t)
    (hf : t.status = .faulted) :
    (∃ k, Raises i s k ∧ t = s.enterFault k s.pc i.opcode) ∨
    (i ≠ .halt ∧ ∃ u, Commits i s u ∧ u.L.toNat < u.pc.toNat ∧
      t = u.enterFault .programCounterOutOfBounds s.pc i.opcode) := by
  by_cases hi : i = .halt
  · subst hi
    cases h
    cases hf
  · rcases exec_outcomes hi h with ⟨u, hu, ⟨-, rfl⟩ | ⟨hlt, ht⟩⟩ | hr
    · cases (hu.keeps.1.trans hs).symm.trans hf
    · exact .inr ⟨hi, u, hu, hlt, ht⟩
    · exact .inl hr

/-! ### Every way into FAULTED (R201) -/

/-- `FaultEntry s t`: a step from `s` ends in FAULTED as `t`, by a fault of stage 1, of stage 2, of stage 3 or 4, or of
the bound check (R201). -/
inductive FaultEntry (s : State) : State → Prop where
  | outOfRange : 32764 < s.pc.toNat → FaultEntry s (s.enterFault .fetchOutOfRange s.pc 0)
  | illegalOpcode : s.pc.toNat ≤ 32764 → 22 ≤ (s.slot 0).toNat →
      FaultEntry s (s.enterFault .unknownOpcode s.pc (s.slot 0))
  | raised (i k) : s.fetch = .instr i → Raises i s k → FaultEntry s (s.enterFault k s.pc (s.slot 0))
  | overrun (i u) : s.fetch = .instr i → i ≠ .halt → Commits i s u → u.L.toNat < u.pc.toNat →
      FaultEntry s (u.enterFault .programCounterOutOfBounds s.pc (s.slot 0))

/-- A step that ends in FAULTED does so in one of these ways (R86, R201). -/
theorem step_faultEntry {s t : State} (h : step s = .next t) (hf : t.status = .faulted) : FaultEntry s t := by
  obtain ⟨⟨-, hs⟩, ⟨i, -, hi, he⟩ | ⟨k, op, hk, rfl⟩⟩ := step_cases h
  · rcases exec_faulted_cases hs he hf with ⟨k, hr, rfl⟩ | ⟨hne, u, hu, hlt, rfl⟩ <;> rw [opcode_of_fetch hi]
    · exact .raised i k hi hr
    · exact .overrun i u hi hne hu hlt
  · rcases fetch_fault_cases hk with ⟨hpc, rfl, rfl⟩ | ⟨hpc, hop, rfl, rfl⟩
    · exact .outOfRange hpc
    · exact .illegalOpcode hpc hop

/-! ### Precision (R202, R203) -/

/-- Settles O13, by the ways into FAULTED: the first three are fault entry on the state fetched from, the bound fault is
fault entry on the state committed. -/
theorem faultEntryIsPrecise : Obligations.FaultEntryIsPrecise := by
  intro s t _ h hf
  cases step_faultEntry h hf with
  | outOfRange | illegalOpcode => exact ⟨rfl, nofun, rfl, fun _ => rfl, nofun⟩
  | raised i k _ hr =>
    obtain ⟨hfetch, hbound⟩ := hr.not_fetch_nor_bound
    exact ⟨rfl, hr.ne_none, (if_neg hfetch).symm, fun _ => rfl, fun hk => absurd hk hbound⟩
  | overrun i u hi hne hu hlt =>
    exact ⟨rfl, nofun, rfl, fun hk => absurd rfl hk, fun _ => ⟨hlt, i, hi, hne, hu.commitsAllWrites _ _ _⟩⟩

/-! ### The causes (R191) -/

/-- Settles O14, by the ways into FAULTED and, for stages 3 and 4, by what an instruction can raise. -/
theorem causesAndWhatRaisesThem : Obligations.CausesAndWhatRaisesThem := by
  refine ⟨by decide, fun s t _ h hf => ?_⟩
  cases step_faultEntry h hf with
  | outOfRange hpc => exact hpc
  | illegalOpcode hpc hop => exact ⟨hpc, hop⟩
  | overrun i u hi hne _ hlt => exact ⟨i, hi, hne, hlt⟩
  | raised i k hi hr =>
    cases hr with
    | target _ _ a hd hn => exact ⟨i, a, hi, hd, hn⟩
    | operand _ _ f hv => exact ⟨i, f, hi, hv⟩
    | pushFull a _ hsp => exact ⟨hsp, a, .inl hi⟩
    | callFull a _ hsp => exact ⟨hsp, a, .inr hi⟩
    | popEmpty a _ hsp => exact ⟨BitVec.eq_of_toNat_eq hsp, .inr ⟨a, hi⟩⟩
    | retEmpty _ hsp => exact ⟨BitVec.eq_of_toNat_eq hsp, .inl hi⟩
    | modZero a b c _ hc => exact ⟨a, b, c, hi, hc⟩
    | rmemHigh a b _ addr hb hbit =>
      rw [getLsbD_fifteen, decide_eq_true_eq] at hbit
      exact ⟨a, b, addr, hi, hb, hbit⟩
    | inpEnded a _ he => exact ⟨a, hi, State.inByte_eq_eof.1 he⟩

end Sys2Proof.Machine

/-! ## Proofs: reset and hazards (`70_reset_and_hazards.md`) -/

namespace Sys2Proof.Machine

/-! ### The empty image (R223) -/

/-- Settles O56: after the boot of an empty image `pc` is 0 and every cell holds 0 (O50), so the first step fetches the
word 0, which is halt. -/
theorem emptyImageHalts : Obligations.EmptyImageHalts := by
  intro l s t hi hb
  obtain ⟨t', hb', -, -, hpc, hst, -, -, -, -, hra, hmem, -⟩ :=
    bootGivesResetState l s [] [] hi rfl (Nat.zero_le _)
  cases hb.symm.trans hb'
  have hle : t.pc.toNat ≤ 32764 := by simp [hpc]
  have h0 : t.slot 0 = 0 := hmem _
  have hstep : step t = .next t.haltCore := step_of_fetch_instr ⟨hra, hst⟩ (fetch_of_halt hle h0)
  exact ⟨t.haltCore, hstep, rfl, hpc⟩

end Sys2Proof.Machine

/-! ## Proofs: decoding and encoding (`30_encoding.md`) -/

namespace Sys2Proof

/-! ### Decoding an encoding (R70, R71, R73) -/

/-- Settles O1, by the number of slots: the field of each slot is classified as the operand it encodes, and the words
after the last slot are not looked at. -/
theorem decodeOfEncode : Obligations.DecodeOfEncode := by
  intro i x y z h
  have hslot : ∀ o ∈ i.operands, classify o.field = o := fun o ho => classify_field (List.all_eq_true.1 h o ho)
  cases i with
  | halt | ret | noop => exact ⟨_, _, _, _, _, rfl, rfl⟩
  | push a | pop a | jmp a | call a | out a | inp a =>
    have ha : classify a.field = a := hslot a (by simp [Instr.operands])
    exact ⟨_, _, _, _, _, rfl, by simp [decode, Instr.opcode, ha]⟩
  | set a b | jt a b | jf a b | not a b | rmem a b | wmem a b =>
    have ha : classify a.field = a := hslot a (by simp [Instr.operands])
    have hb : classify b.field = b := hslot b (by simp [Instr.operands])
    exact ⟨_, _, _, _, _, rfl, by simp [decode, Instr.opcode, ha, hb]⟩
  | eq a b c | gt a b c | add a b c | mult a b c | mod a b c | and a b c | or a b c =>
    have ha : classify a.field = a := hslot a (by simp [Instr.operands])
    have hb : classify b.field = b := hslot b (by simp [Instr.operands])
    have hc : classify c.field = c := hslot c (by simp [Instr.operands])
    exact ⟨_, _, _, _, _, rfl, by simp [decode, Instr.opcode, ha, hb, hc]⟩

/-! ### Encoding a decoding (R70, R71, R76) -/

/-- The slots of a decoded instruction are the classes of the words after the opcode word, as many as its width takes
in (R71, R73). -/
theorem operands_of_decode {op a b c : Field} {i : Instr} (h : decode op a b c = .instr i) :
    ∃ n, i.width = n + 1 ∧ i.operands = ([a, b, c].take n).map classify := by
  unfold decode at h
  split at h <;> cases h
  all_goals exact ⟨_, rfl, rfl⟩

/-- Settles O2: the decoder classifies the words of the slots, and the field of a classified word is that word. -/
theorem encodeOfDecode : Obligations.EncodeOfDecode := by
  intro op a b c i h
  obtain ⟨n, hn, hslots⟩ := operands_of_decode h
  obtain ⟨hop, -⟩ := opcode_of_decode h
  refine ⟨?_, ?_⟩
  · rw [Instr.wf, hslots, List.all_map]
    exact List.all_eq_true.2 fun f _ => classify_wf f
  · have hfields : (([a, b, c].take n).map classify).map Operand.field = [a, b, c].take n := by
      simp [field_classify]
    rw [encode, hop, hslots, hfields, hn, List.take_succ_cons]

/-- Settles O3: each word list is an encoding followed by the words of unused slots. -/
theorem writtenOutWordsDecode : Obligations.WrittenOutWordsDecode := by
  unfold Obligations.WrittenOutWordsDecode
  decide

end Sys2Proof

namespace Sys2Proof.Machine

/-! ### Value slots (R74) -/

/-- Settles O6, class by class. -/
theorem valueOfField : Obligations.ValueOfField := by
  refine ⟨fun s f h => ?_, fun s f i h => ?_, fun s f h => ?_⟩
  · rw [classify_of_le h, val_literal]
  · rw [classify_of_register h, val_register]
  · rw [classify_of_ge h, val_invalid]

/-! ### The step of a decoded instruction (R82, R86) -/

/-- Settles O8: stage 2 fetches the decoded instruction, and the step is its meaning. -/
theorem stepRunsDecodedInstruction : Obligations.StepRunsDecodedInstruction := by
  intro s i hs hpc hd
  obtain ⟨hwf, -⟩ := encodeOfDecode _ _ _ _ i hd
  exact ⟨hwf, step_of_fetch_instr hs (fetch_of_decode hpc hd)⟩

/-! ### A placed instruction (log entry 8) -/

/-- Two of the four slot addresses of a step that passed stage 1 are equal only for the same slot (R81). -/
theorem slotAddress_eq_iff {p j k : Nat} (hp : p ≤ 32764) (hj : j < 4) (hk : k < 4) :
    BitVec.ofNat 15 (p + j) = BitVec.ofNat 15 (p + k) ↔ j = k := by
  have hlt : ∀ n, n < 4 → (p + n) % 2 ^ 15 = p + n := fun n hn => Nat.mod_eq_of_lt (by omega)
  rw [← BitVec.toNat_inj, BitVec.toNat_ofNat, BitVec.toNat_ofNat, hlt j hj, hlt k hk, Nat.add_left_cancel_iff]

/-- After a placement the four slots hold the words of the instruction placed. -/
theorem slot_placeInstr {s : State} (hpc : s.pc.toNat ≤ 32764) (nbits w : Nat) {k : Nat} (hk : k < 4) :
    (s.placeInstr nbits w).slot k = tableWord nbits w k := by
  have haddr : ∀ j, j < 4 → (BitVec.ofNat 15 (s.pc.toNat + k) = BitVec.ofNat 15 (s.pc.toNat + j) ↔ k = j) :=
    fun j hj => slotAddress_eq_iff hpc hk hj
  have hread : (s.placeInstr nbits w).slot k =
      if k = 3 then tableWord nbits w 3 else if k = 2 then tableWord nbits w 2 else
        if k = 1 then tableWord nbits w 1 else if k = 0 then tableWord nbits w 0 else s.slot k := by
    rw [State.placeInstr, if_neg (Nat.not_lt.2 hpc)]
    simp only [State.slot, ← haddr 0 (by decide), ← haddr 1 (by decide), ← haddr 2 (by decide),
      ← haddr 3 (by decide), ← State.memRead_memWrite]
    rfl
  rw [hread]
  interval_cases k <;> rfl

/-- A placement leaves the machine ready, at the same `pc`. -/
theorem placeInstr_keeps (s : State) (nbits w : Nat) :
    (s.placeInstr nbits w).pc = s.pc ∧ (s.placeInstr nbits w).status = s.status ∧
    (s.placeInstr nbits w).resetAsserted = s.resetAsserted := by
  unfold State.placeInstr
  split <;> exact ⟨rfl, rfl, rfl⟩

/-- An instruction given as one number is what its four words decode to. -/
theorem decodeTableWord_eq_some {nbits w : Nat} {i : Instr} :
    decodeTableWord nbits w = some i ↔
      decode (tableWord nbits w 0) (tableWord nbits w 1) (tableWord nbits w 2) (tableWord nbits w 3) = .instr i := by
  unfold decodeTableWord
  split <;> simp_all

/-- Settles O9: the four slots of the state with the word placed decode to its instruction. -/
theorem placedInstructionRuns : Obligations.PlacedInstructionRuns := by
  intro s nbits w i ⟨hra, hst⟩ hpc hw
  obtain ⟨hpc', hst', hra'⟩ := placeInstr_keeps s nbits w
  have hslot : ∀ k < 4, (s.placeInstr nbits w).slot k = tableWord nbits w k := fun _ => slot_placeInstr hpc nbits w
  rw [State.withFetchWord]
  refine step_of_fetch_instr ⟨hra'.trans hra, hst'.trans hst⟩ (fetch_of_decode (hpc' ▸ hpc) ?_)
  rw [hslot 0 (by decide), hslot 1 (by decide), hslot 2 (by decide), hslot 3 (by decide)]
  exact decodeTableWord_eq_some.1 hw

end Sys2Proof.Machine

/-! ## Proofs: memory, what it keeps and when it is equal (`20_memory.md`) -/

namespace Sys2Proof.Machine

/-! ### Reads after writes (R51, R59) -/

/-- Settles O45, by the read-after-write law of memory and the canonical form a cell write keeps. -/
theorem readReturnsLastWrite : Obligations.ReadReturnsLastWrite := by
  refine fun s addr v => ⟨?_, fun addr' hne => ?_, fun hwf => Memory.wf_writeCell hwf addr.isLt⟩
  · rw [State.memRead_memWrite, if_pos rfl]
  · rw [State.memRead_memWrite, if_neg hne]

/-! ### Equality of canonical storage (log entry 6) -/

/-- What is found under a key is listed under it. -/
theorem Store.mem_of_find {α : Type} {k : Nat} {v : α} {m : List (Nat × α)} (h : Store.find k m = some v) :
    (k, v) ∈ m := by
  induction m with
  | nil => cases h
  | cons e rest ih =>
    obtain ⟨j, w⟩ := e
    rw [Store.find] at h
    split at h
    next hj =>
      cases h
      exact hj ▸ List.mem_cons_self
    next => exact List.mem_cons_of_mem _ (ih h)

/-- The least key listed is the first one. -/
theorem Store.head_key_le {α : Type} {j l : Nat} {v w : α} {m m' : List (Nat × α)}
    (hs : Store.sorted ((j, v) :: m) = true)
    (h : ∀ k, Store.find k ((j, v) :: m) = Store.find k ((l, w) :: m')) : j ≤ l := by
  have hl : (l, w) ∈ (j, v) :: m := Store.mem_of_find ((h l).trans (if_pos rfl))
  rcases List.mem_cons.1 hl with he | hm
  · exact (Prod.mk.inj he).1.ge
  · exact ((Store.sorted_cons.1 hs).1 _ hm).le

/-- Storage with rising keys is determined by what is found in it. -/
theorem Store.ext_of_find {α : Type} {m m' : List (Nat × α)} (hs : Store.sorted m = true)
    (hs' : Store.sorted m' = true) (h : ∀ k, Store.find k m = Store.find k m') : m = m' := by
  induction m generalizing m' with
  | nil =>
    cases m' with
    | nil => rfl
    | cons e rest => simpa [Store.find] using h e.1
  | cons e rest ih =>
    cases m' with
    | nil => simpa [Store.find] using h e.1
    | cons e' rest' =>
      obtain ⟨j, v⟩ := e
      obtain ⟨l, w⟩ := e'
      obtain rfl : j = l := (Store.head_key_le hs h).antisymm (Store.head_key_le hs' fun k => (h k).symm)
      obtain rfl : v = w := by simpa [Store.find] using h j
      obtain ⟨hlt, hsr⟩ := Store.sorted_cons.1 hs
      obtain ⟨hlt', hsr'⟩ := Store.sorted_cons.1 hs'
      refine congrArg _ (ih hsr hsr' fun k => ?_)
      by_cases hk : j = k
      · rw [← hk, Store.find_none_of_lt hlt, Store.find_none_of_lt hlt']
      · simpa [Store.find, hk] using h k

/-- In canonical memory a byte that is not listed is told by its value, 0 (R65). -/
theorem Memory.find_eq_of_wf {m : Memory} (h : m.wf = true) (k : Nat) :
    Store.find k m = if m.readByte k = Memory.unlistedByte then none else some (m.readByte k) := by
  obtain ⟨-, he⟩ := Memory.wf_iff.1 h
  cases hf : Store.find k m with
  | none => simp [Memory.readByte, hf]
  | some b =>
    have hb : b ≠ Memory.unlistedByte := (he _ (Store.mem_of_find hf)).2
    simp [Memory.readByte, hf, hb]

/-- Settles O46: in canonical form what is listed is determined by what is read, and the order by the keys. -/
theorem canonicalMemoriesAreEqual : Obligations.CanonicalMemoriesAreEqual := by
  intro m m' h h' hread
  obtain ⟨hs, -⟩ := Memory.wf_iff.1 h
  obtain ⟨hs', -⟩ := Memory.wf_iff.1 h'
  refine Store.ext_of_find hs hs' fun k => ?_
  rw [Memory.find_eq_of_wf h, Memory.find_eq_of_wf h', hread]

/-! ### A store and the fetches after it (R63, R225) -/

/-- The bound check leaves memory alone (R26). -/
@[simp] theorem State.boundCheck_mem (t : State) (p : BitVec 16) (op : Field) : (t.boundCheck p op).mem = t.mem := by
  rcases t.boundCheck_cases p op with ⟨-, h⟩ | ⟨-, h⟩ <;> rw [h]
  exact State.enterFault_mem ..

/-- Settles O47: the step is wmem's meaning, and the memory it leaves is that of its commit. -/
theorem storesAreSeenByTheNextFetch : Obligations.StoresAreSeenByTheNextFetch := by
  intro s t a b addr v hs hf ha hb hstep
  have hexec : exec (.wmem a b) s = .next t := (step_of_fetch_instr hs hf).symm.trans hstep
  refine ⟨hexec, fun k => ?_⟩
  obtain ⟨-, hcommit⟩ := exec_of_commits (.wmem s a b addr v ha hb)
  cases hcommit.symm.trans hexec
  rw [State.slot, State.memRead_congr (State.boundCheck_mem ..), State.memRead_congr (State.advance_mem ..),
    State.memRead_memWrite]

end Sys2Proof.Machine

/-! ## Proofs: what each instruction leaves unchanged -/

namespace Sys2Proof

/-- The instructions that use the call stack (R30). -/
def Instr.usesStack : Instr → Bool
  | .push _ | .pop _ | .call _ | .ret => true
  | _ => false

/-- The instructions that use the host channel (R180, R181). -/
def Instr.usesHost : Instr → Bool
  | .out _ | .inp _ => true
  | _ => false

/-- The one instruction that stores to the Address Space (R171). -/
def Instr.stores : Instr → Bool
  | .wmem _ _ => true
  | _ => false

end Sys2Proof

namespace Sys2Proof.Machine

/-! ### What a commit leaves unchanged -/

section
variable {i : Instr} {s u t : State}

/-- Only push, pop, call and ret change the call stack (R30). -/
theorem Commits.stack_eq (h : Commits i s u) (hi : i.usesStack = false) : u.stk = s.stk ∧ u.sp = s.sp := by
  cases h with
  | push | pop | call | ret => cases hi
  | jt | jf => split <;> exact ⟨rfl, rfl⟩
  | _ => exact ⟨rfl, rfl⟩

/-- Only out and in move a position in the host streams (R180, R181). -/
theorem Commits.streams_eq (h : Commits i s u) (hi : i.usesHost = false) :
    u.inputPos = s.inputPos ∧ u.output = s.output := by
  cases h with
  | out | inp => cases hi
  | jt | jf => split <;> exact ⟨rfl, rfl⟩
  | _ => exact ⟨rfl, rfl⟩

/-- push and call put one entry on a stack that is not full (R111, R133). -/
theorem Commits.stack_of_push (h : Commits i s u) (hi : ∃ a, i = .push a ∨ i = .call a) :
    s.sp.toNat ≠ 32768 ∧ ∃ v, u.stk = (s.pushEntry v).stk ∧ u.sp = (s.pushEntry v).sp := by
  obtain ⟨a, rfl | rfl⟩ := hi
  · cases h with | push _ _ v _ hs => exact ⟨hs, v, rfl, rfl⟩
  · cases h with | call _ _ t _ hs => exact ⟨hs, returnAddress s, rfl, rfl⟩

/-- pop and ret take the top entry off a stack that is not empty (R112, R134). -/
theorem Commits.stack_of_pop (h : Commits i s u) (hi : i = .ret ∨ ∃ a, i = .pop a) :
    s.sp.toNat ≠ 0 ∧ u.stk = s.popEntry.stk ∧ u.sp = s.popEntry.sp := by
  obtain rfl | ⟨a, rfl⟩ := hi
  · cases h with | ret _ hs => exact ⟨hs, rfl, rfl⟩
  · cases h with | pop _ d hs => exact ⟨hs, rfl, rfl⟩

/-- out appends one byte to the output (R182). -/
theorem Commits.streams_of_out {a : Operand} (h : Commits (.out a) s u) :
    u.inputPos = s.inputPos ∧ ∃ y, u.output = s.output ++ [y] := by
  cases h with | out _ _ v => exact ⟨rfl, _, rfl⟩

/-- in takes one byte that the host has offered (R183). -/
theorem Commits.streams_of_inp {a : Operand} (h : Commits (.inp a) s u) :
    u.inputPos = s.inputPos + 1 ∧ u.output = s.output ∧ ∃ y, s.inByte = .byte y := by
  cases h with | inp _ d y hy => exact ⟨rfl, rfl, y, hy⟩

/-! ### What an instruction leaves unchanged, fault entry included -/

/-- Apart from the status and the fault record, an instruction leaves what it commits, or what was there before where
it halts or faults before it commits (R85, R202). -/
theorem exec_writes (h : exec i s = .next t) :
    ∃ u, (u = s ∧ (i = .halt ∨ t.status = .faulted) ∨ Commits i s u) ∧
      t = { u with status := t.status, cause := t.cause, faultPc := t.faultPc, faultOp := t.faultOp } := by
  by_cases hi : i = .halt
  · subst hi
    cases h
    exact ⟨s, .inl ⟨rfl, .inl rfl⟩, rfl⟩
  · rcases exec_outcomes hi h with ⟨u, hu, ⟨-, rfl⟩ | ⟨-, rfl⟩⟩ | ⟨k, -, rfl⟩
    · exact ⟨t, .inr hu, rfl⟩
    · exact ⟨u, .inr hu, rfl⟩
    · exact ⟨s, .inl ⟨rfl, .inr rfl⟩, rfl⟩

/-- No instruction writes `L`, the reset input, or what the host does with its channel (R31, R220). -/
theorem exec_sameLaunch (h : exec i s = .next t) : SameLaunch s t := by
  obtain ⟨u, hu, ht⟩ := exec_writes h
  rw [ht]
  rcases hu with ⟨rfl, -⟩ | hu
  · exact ⟨rfl, rfl, rfl, rfl, rfl⟩
  · obtain ⟨-, -, -, -, hL, hreset, hinput, hended, hsink⟩ := hu.keeps
    exact ⟨hL, hreset, hinput, hended, hsink⟩

/-- The stack is as before unless the instruction uses it (R30). -/
theorem exec_sameStack (h : exec i s = .next t) (hi : i.usesStack = false) : SameStack s t := by
  obtain ⟨u, hu, ht⟩ := exec_writes h
  rw [ht]
  rcases hu with ⟨rfl, -⟩ | hu
  · exact ⟨fun _ => rfl, rfl⟩
  · obtain ⟨hstk, hsp⟩ := hu.stack_eq hi
    exact ⟨fun k => congrArg (StackStore.read · k) hstk, hsp⟩

/-- The positions in the host streams are as before unless the instruction uses the channel (R180, R181). -/
theorem exec_sameStreams (h : exec i s = .next t) (hi : i.usesHost = false) : SameStreams s t := by
  obtain ⟨u, hu, ht⟩ := exec_writes h
  rw [ht]
  rcases hu with ⟨rfl, -⟩ | hu
  · exact ⟨rfl, rfl⟩
  · exact hu.streams_eq hi

/-- Memory is as before unless the instruction stores (R171). -/
theorem exec_sameMemory (h : exec i s = .next t) (hi : i.stores = false) : SameMemory s t := by
  rcases exec_mem_cases h with hm | ⟨a, b, addr, v, rfl, -⟩
  · exact fun k => congrArg (Memory.readByte · k) hm
  · cases hi

/-- A register that the destination slot does not name is as before (R22). -/
theorem exec_readReg_of_destination_ne {j : RegIdx} (h : exec i s = .next t) (hj : i.destination ≠ some (.register j)) :
    t.readReg j = s.readReg j :=
  not_imp_comm.1 (exec_destination_of_readReg_ne h) hj

/-- Every register is as before if there is no destination slot (R22). -/
theorem exec_sameRegs (h : exec i s = .next t) (hi : i.destination = none) : SameRegs s t :=
  fun j => exec_readReg_of_destination_ne h (by simp [hi])

/-- Where slot `a` is the destination, a register it does not resolve to is as before (R22, R75). -/
theorem exec_readReg_of_dst_ne {a : Operand} (h : exec i s = .next t) (hi : i.destination = some a) (j : RegIdx)
    (hj : dst a ≠ .ok j) : t.readReg j = s.readReg j := by
  refine exec_readReg_of_destination_ne h fun hd => hj (dst_eq_ok.2 ?_)
  exact Option.some.inj (hi.symm.trans hd)

/-- Only halt writes the status and no fault record: any other instruction keeps both or enters FAULTED (R203). -/
theorem exec_statusKeptOrFaulted (h : exec i s = .next t) (hi : i ≠ .halt) : StatusKeptOrFaulted i s t := by
  rcases exec_outcomes hi h with ⟨u, hu, ⟨-, rfl⟩ | ⟨-, rfl⟩⟩ | ⟨k, hk, rfl⟩
  · obtain ⟨hst, hca, hfp, hfo, -⟩ := hu.keeps
    exact .inl ⟨hst, hca, hfp, hfo⟩
  · exact .inr ⟨rfl, nofun, rfl, rfl⟩
  · exact .inr ⟨rfl, hk.ne_none, rfl, rfl⟩

/-! ### What is left where an instruction faults before it commits -/

/-- push and call leave the stack with one more entry, or as it was, with `pc`, where they fault before they commit
(R30, R202). -/
theorem exec_stack_of_push (h : exec i s = .next t) (hi : ∃ a, i = .push a ∨ i = .call a) :
    (∀ k, k ≠ s.sp.toNat → StackStore.read t.stk k = StackStore.read s.stk k) ∧
    (t.sp = s.sp + 1 ∨ SameStack s t ∧ t.pc = s.pc ∧ t.status = .faulted) := by
  have hhalt : i ≠ .halt := by rintro rfl; simp at hi
  obtain ⟨u, ⟨rfl, hend⟩ | hu, ht⟩ := exec_writes h
  · have hf : t.status = .faulted := hend.resolve_left hhalt
    rw [ht]
    exact ⟨fun _ _ => rfl, .inr ⟨⟨fun _ => rfl, rfl⟩, rfl, hf⟩⟩
  · obtain ⟨-, v, hstk, hsp⟩ := hu.stack_of_push hi
    rw [ht]
    exact ⟨fun k hk => (congrArg (StackStore.read · k) hstk).trans (StackStore.read_put_ne s.stk hk v), .inl hsp⟩

/-- pop and ret leave every entry and take one off the depth, or leave depth, registers and `pc` where they fault before
they commit (R30, R202). -/
theorem exec_stack_of_pop (h : exec i s = .next t) (hi : i = .ret ∨ ∃ a, i = .pop a) :
    (∀ k, StackStore.read t.stk k = StackStore.read s.stk k) ∧
    (t.sp = s.sp - 1 ∨ t.sp = s.sp ∧ SameRegs s t ∧ t.pc = s.pc ∧ t.status = .faulted) := by
  have hhalt : i ≠ .halt := by rintro rfl; simp at hi
  obtain ⟨u, ⟨rfl, hend⟩ | hu, ht⟩ := exec_writes h
  · have hf : t.status = .faulted := hend.resolve_left hhalt
    rw [ht]
    exact ⟨fun _ => rfl, .inr ⟨rfl, fun _ => rfl, rfl, hf⟩⟩
  · obtain ⟨-, hstk, hsp⟩ := hu.stack_of_pop hi
    rw [ht]
    exact ⟨fun k => congrArg (StackStore.read · k) hstk, .inl hsp⟩

/-- out takes no byte and appends one, or none where it faults before it commits (R182, R202). -/
theorem exec_streams_of_out {a : Operand} (h : exec (.out a) s = .next t) :
    t.inputPos = s.inputPos ∧ (t.output = s.output ∨ ∃ y, t.output = s.output ++ [y]) := by
  obtain ⟨u, ⟨rfl, -⟩ | hu, ht⟩ := exec_writes h <;> rw [ht]
  · exact ⟨rfl, .inl rfl⟩
  · exact hu.streams_of_out.imp_right .inr

/-- in appends no byte and takes one, or none where it faults before it commits (R183, R202). -/
theorem exec_streams_of_inp {a : Operand} (h : exec (.inp a) s = .next t) :
    t.output = s.output ∧ (t.inputPos = s.inputPos ∧ SameRegs s t ∨ t.inputPos = s.inputPos + 1) := by
  obtain ⟨u, ⟨rfl, -⟩ | hu, ht⟩ := exec_writes h <;> rw [ht]
  · exact ⟨rfl, .inl ⟨rfl, fun _ => rfl⟩⟩
  · obtain ⟨hpos, hout, -⟩ := hu.streams_of_inp
    exact ⟨hout, .inr hpos⟩

end

/-! ### The frames -/

/-- Settles O38: each of the ten has slot `a` as its destination and uses neither stack nor memory nor channel. -/
theorem registerOpsFrame : Obligations.RegisterOpsFrame := by
  intro i a b c s t hi h
  have hkind : i.destination = some a ∧ i.stores = false ∧ i.usesStack = false ∧ i.usesHost = false ∧ i ≠ .halt := by
    rcases hi with rfl | rfl | rfl | rfl | rfl | rfl | rfl | rfl | rfl | rfl <;> exact ⟨rfl, rfl, rfl, rfl, nofun⟩
  obtain ⟨hdest, hmem, hstack, hhost, hhalt⟩ := hkind
  exact ⟨exec_readReg_of_dst_ne h hdest, exec_sameMemory h hmem, exec_sameStack h hstack, exec_sameLaunch h,
    exec_sameStreams h hhost, exec_statusKeptOrFaulted h hhalt⟩

/-- Settles O39: the five have no destination and use neither stack nor memory nor channel; halt is `haltCore`. -/
theorem controlOpsFrame : Obligations.ControlOpsFrame := by
  intro i a b s t hi h
  have hkind : i.destination = none ∧ i.stores = false ∧ i.usesStack = false ∧ i.usesHost = false := by
    rcases hi with rfl | rfl | rfl | rfl | rfl <;> exact ⟨rfl, rfl, rfl, rfl⟩
  obtain ⟨hdest, hmem, hstack, hhost⟩ := hkind
  refine ⟨exec_sameRegs h hdest, exec_sameMemory h hmem, exec_sameStack h hstack, exec_sameLaunch h,
    exec_sameStreams h hhost, exec_statusKeptOrFaulted h, ?_⟩
  rintro rfl
  cases h
  exact ⟨rfl, rfl, rfl, rfl⟩

/-- Settles O40: the four use neither memory nor channel, and the stack is what their one push or pop makes of it. -/
theorem stackOpsFrame : Obligations.StackOpsFrame := by
  refine ⟨fun i a s t hi h => ?_, fun i a s t hi h => ?_⟩
  · have hkind : i.destination = none ∧ i.stores = false ∧ i.usesHost = false ∧ i ≠ .halt := by
      rcases hi with rfl | rfl <;> exact ⟨rfl, rfl, rfl, nofun⟩
    obtain ⟨hdest, hmem, hhost, hhalt⟩ := hkind
    exact ⟨exec_sameRegs h hdest, exec_sameMemory h hmem, exec_sameLaunch h, exec_sameStreams h hhost,
      exec_statusKeptOrFaulted h hhalt, exec_stack_of_push h ⟨a, hi⟩⟩
  · have hkind : i.stores = false ∧ i.usesHost = false ∧ i ≠ .halt := by
      rcases hi with rfl | rfl <;> exact ⟨rfl, rfl, nofun⟩
    obtain ⟨hmem, hhost, hhalt⟩ := hkind
    have hregs : ∀ j, i = .ret ∨ dst a ≠ .ok j → t.readReg j = s.readReg j := by
      intro j hj
      rcases hi with rfl | rfl
      · exact exec_readReg_of_dst_ne h rfl j (hj.resolve_left nofun)
      · exact exec_sameRegs h rfl j
    exact ⟨hregs, exec_sameMemory h hmem, exec_sameLaunch h, exec_sameStreams h hhost,
      exec_statusKeptOrFaulted h hhalt, exec_stack_of_pop h (hi.symm.imp_right fun hp => ⟨a, hp⟩)⟩

/-- Settles O41: wmem has no destination and uses neither stack nor channel, and its one cell write touches the two
bytes of its cell. -/
theorem wmemFrame : Obligations.WmemFrame := by
  intro a b s t h
  refine ⟨exec_sameRegs h rfl, exec_sameStack h rfl, exec_sameLaunch h, exec_sameStreams h rfl,
    exec_statusKeptOrFaulted h nofun, ?_⟩
  rcases exec_mem_cases h with hm | ⟨a', b', addr', v, hi, ha', -, hm⟩
  · exact ⟨fun _ k _ _ _ => congrArg (Memory.readByte · k) hm, fun _ addr _ _ => State.memRead_congr hm addr,
      fun _ _ k => congrArg (Memory.readByte · k) hm⟩
  · cases hi
    refine ⟨fun addr k ha hlo hhi => ?_, fun addr addr'' ha hne => ?_, fun e he => ?_⟩
    · cases ha'.symm.trans ha
      rw [hm, State.memWrite_mem, Memory.readByte_writeCell, if_neg hlo, if_neg hhi]
    · cases ha'.symm.trans ha
      rw [State.memRead_congr hm, State.memRead_memWrite, if_neg hne]
    · cases ha'.symm.trans he

/-- Settles O42: the two use neither stack nor memory, and move one position in the host streams by one byte or none. -/
theorem hostIoFrame : Obligations.HostIoFrame := by
  refine ⟨fun a s t h => ?_, fun a s t h => ?_⟩
  · obtain ⟨hpos, hout⟩ := exec_streams_of_out h
    exact ⟨exec_sameRegs h rfl, exec_sameMemory h rfl, exec_sameStack h rfl, exec_sameLaunch h, hpos,
      exec_statusKeptOrFaulted h nofun, hout⟩
  · obtain ⟨hout, hpos⟩ := exec_streams_of_inp h
    exact ⟨exec_readReg_of_dst_ne h rfl, exec_sameMemory h rfl, exec_sameStack h rfl, exec_sameLaunch h, hout,
      exec_statusKeptOrFaulted h nofun, hpos⟩

end Sys2Proof.Machine

/-! ## Proofs: the invariant of every reachable state (`10_state.md` R39) -/

namespace Sys2Proof

/-- An instruction that uses the call stack pushes or pops (R30). -/
theorem Instr.push_or_pop_of_usesStack (i : Instr) (hi : i.usesStack = true) :
    (∃ a, i = .push a ∨ i = .call a) ∨ (i = .ret ∨ ∃ a, i = .pop a) := by
  cases i with
  | push a => exact .inl ⟨a, .inl rfl⟩
  | call a => exact .inl ⟨a, .inr rfl⟩
  | pop a => exact .inr (.inr ⟨a, rfl⟩)
  | ret => exact .inr (.inl rfl)
  | _ => cases hi

end Sys2Proof

namespace Sys2Proof.Machine

/-! ### The call stack's part (R28 to R30) -/

/-- What is found after a store: the key stored, and what was found before. -/
theorem Store.isSome_find_put {α : Type} (k j : Nat) (v : α) (m : List (Nat × α)) :
    (Store.find j (Store.put k v m)).isSome = true ↔ j = k ∨ (Store.find j m).isSome = true := by
  by_cases hj : j = k
  · simp [hj, Store.find_put_same]
  · simp [hj, Store.find_put_ne hj]

/-- The invariant's words on the call stack: canonical storage, at most 32768 live entries, and each of them written. -/
structure State.StackInv (s : State) : Prop where
  storage : StackStore.wf s.stk = true
  depth : s.sp.toNat ≤ 32768
  live : ∀ k, k < s.sp.toNat → (Store.find k s.stk).isSome = true

section
variable {s t : State}

/-- They speak of the storage and the depth alone. -/
theorem State.StackInv.congr (h : s.StackInv) (hstk : t.stk = s.stk) (hsp : t.sp = s.sp) : t.StackInv :=
  ⟨hstk ▸ h.storage, hsp ▸ h.depth, by rw [hstk, hsp]; exact h.live⟩

/-- A push on a stack that is not full keeps them (R30). -/
theorem State.StackInv.pushEntry (h : s.StackInv) (hs : s.sp.toNat ≠ 32768) (v : Word) : (s.pushEntry v).StackInv := by
  have hlt : s.sp.toNat < 32768 := lt_of_le_of_ne h.depth hs
  have hsp := s.pushEntry_sp_toNat v hlt
  refine ⟨StackStore.wf_put h.storage hlt, by omega, fun k hk => ?_⟩
  rw [State.pushEntry_stk, Store.isSome_find_put]
  rcases Nat.lt_succ_iff_lt_or_eq.1 (hsp ▸ hk) with hk | hk
  · exact .inr (h.live k hk)
  · exact .inl hk

/-- A pop from a stack that is not empty keeps them (R30). -/
theorem State.StackInv.popEntry (h : s.StackInv) (hs : s.sp.toNat ≠ 0) : s.popEntry.StackInv := by
  have hsp := s.popEntry_sp_toNat hs
  have hdepth := h.depth
  exact ⟨h.storage, by omega, fun k hk => h.live k (by omega)⟩

/-- So does every commit (R30, R85). -/
theorem Commits.stackInv {i : Instr} {u : State} (hc : Commits i s u) (h : s.StackInv) : u.StackInv := by
  cases hi : i.usesStack with
  | false =>
    obtain ⟨hstk, hsp⟩ := hc.stack_eq hi
    exact h.congr hstk hsp
  | true =>
    rcases i.push_or_pop_of_usesStack hi with hpush | hpop
    · obtain ⟨hs, v, hstk, hsp⟩ := hc.stack_of_push hpush
      exact (h.pushEntry hs v).congr hstk hsp
    · obtain ⟨hs, hstk, hsp⟩ := hc.stack_of_pop hpop
      exact (h.popEntry hs).congr hstk hsp

/-! ### The part that does not speak of status and fault record -/

/-- The invariant's words on everything but the status, the fault record and the bound on `pc`: an instruction keeps
them up to the state it commits, before the bound check (R84, R85). -/
structure State.StoredInv (s : State) : Prop where
  memory : s.mem.wf = true
  stack : s.StackInv
  length : s.L.toNat ≤ 32768
  pcRange : s.pc.toNat ≤ 32768
  position : s.inputPos ≤ s.input.length

/-- They are part of the invariant. -/
theorem State.Inv.stored (h : s.Inv) : s.StoredInv :=
  ⟨h.memory, ⟨h.storage, h.depth, h.live⟩, h.length, h.pcRange, h.position⟩

/-- With them, fault entry gives the whole invariant (R203). -/
theorem State.StoredInv.enterFault (h : s.StoredInv) {k : Cause} (hk : k ≠ .none) (p : BitVec 16) (op : Field) :
    (s.enterFault k p op).Inv where
  memory := h.memory
  storage := h.stack.storage
  depth := h.stack.depth
  live := h.stack.live
  length := h.length
  pcRange := h.pcRange
  pcBound := nofun
  unfaulted := fun hne => absurd rfl hne
  faulted := fun _ => hk
  position := h.position

/-- With them, a state that has not faulted, whose record is empty and whose `pc` is within `L` has the whole invariant
(R33, R39). -/
theorem State.StoredInv.inv_of_not_faulted (h : s.StoredInv) (hst : s.status ≠ .faulted)
    (hrecord : s.cause = .none ∧ s.faultPc = 0 ∧ s.faultOp = 0) (hpc : s.status = .running → s.pc.toNat ≤ s.L.toNat) :
    s.Inv where
  memory := h.memory
  storage := h.stack.storage
  depth := h.stack.depth
  live := h.stack.live
  length := h.length
  pcRange := h.pcRange
  pcBound := hpc
  unfaulted := fun _ => hrecord
  faulted := fun hf => absurd hf hst
  position := h.position

/-! ### Steps -/

/-- Memory stays canonical through a commit (R171). -/
theorem Commits.mem_wf {i : Instr} {u : State} (hc : Commits i s u) (h : s.mem.wf = true) : u.mem.wf = true := by
  rcases hc.mem_cases with hm | ⟨a, b, addr, v, -, -, -, hm⟩ <;> rw [hm]
  · exact h
  · exact Memory.wf_writeCell h addr.isLt

/-- A byte at the input port is one that the host has offered (R181). -/
theorem State.inByte_eq_byte {y : Byte} : s.inByte = .byte y ↔ s.input[s.inputPos]? = some y := by
  unfold State.inByte
  split
  next hb => simp [hb]
  next hb => cases s.inputEnded <;> simp [hb]

/-- The position in the input stream stays within it through a commit (R181). -/
theorem Commits.position_le {i : Instr} {u : State} (hc : Commits i s u) (h : s.inputPos ≤ s.input.length) :
    u.inputPos ≤ u.input.length := by
  obtain ⟨-, -, -, -, -, -, hinput, -⟩ := hc.keeps
  rw [hinput]
  cases i with
  | inp a =>
    obtain ⟨hpos, -, y, hy⟩ := hc.streams_of_inp
    obtain ⟨hlt, -⟩ := List.getElem?_eq_some_iff.1 (State.inByte_eq_byte.1 hy)
    rwa [hpos]
  | out a =>
    obtain ⟨hpos, -⟩ := hc.streams_of_out
    rwa [hpos]
  | _ =>
    obtain ⟨hpos, -⟩ := hc.streams_eq rfl
    rwa [hpos]

/-- After stage 1 a commit keeps what the invariant says apart from status, fault record and bound. -/
theorem Commits.storedInv {i : Instr} {u : State} (hc : Commits i s u) (h : s.StoredInv) (hpc : s.pc.toNat ≤ 32764) :
    u.StoredInv := by
  obtain ⟨-, -, -, -, hL, -⟩ := hc.keeps
  exact ⟨hc.mem_wf h.memory, hc.stackInv h.stack, hL ▸ h.length, hc.pc_le hpc, hc.position_le h.position⟩

/-- After stage 1 an instruction run in a RUNNING machine keeps the invariant. -/
theorem exec_inv {i : Instr} (h : s.Inv) (hs : s.status = .running) (hpc : s.pc.toNat ≤ 32764)
    (he : exec i s = .next t) : t.Inv := by
  have hrecord := h.unfaulted (by simp [hs])
  rcases exec_cases he with ⟨-, rfl⟩ | ⟨hi, -⟩
  · exact State.StoredInv.inv_of_not_faulted ⟨h.memory, ⟨h.storage, h.depth, h.live⟩, h.length, h.pcRange, h.position⟩
      nofun hrecord nofun
  · rcases exec_outcomes hi he with ⟨u, hu, ⟨hle, rfl⟩ | ⟨-, rfl⟩⟩ | ⟨k, hk, rfl⟩
    · obtain ⟨hst, hca, hfp, hfo, -⟩ := hu.keeps
      refine (hu.storedInv h.stored hpc).inv_of_not_faulted ?_ ?_ fun _ => hle
      · simp [hst, hs]
      · rwa [hca, hfp, hfo]
    · exact (hu.storedInv h.stored hpc).enterFault (by decide) _ _
    · exact h.stored.enterFault hk.ne_none _ _

/-- A fault of stage 1 or 2 has a cause (R81, R82). -/
theorem fetch_fault_ne_none {k : Cause} {op : Field} (hf : s.fetch = .fault k op) : k ≠ .none := by
  rcases fetch_fault_cases hf with ⟨-, rfl, -⟩ | ⟨-, -, rfl, -⟩ <;> exact nofun

/-- A step keeps the invariant (R39). -/
theorem step_inv (h : s.Inv) (hstep : step s = .next t) : t.Inv := by
  obtain ⟨⟨-, hs⟩, ⟨i, hpc, -, he⟩ | ⟨k, op, hf, rfl⟩⟩ := step_cases hstep
  · exact exec_inv h hs hpc he
  · exact h.stored.enterFault (fetch_fault_ne_none hf) _ _

end

/-- Settles O58: what an instruction commits keeps the part of the invariant that is not about status and record, and
the bound check and fault entry give the rest. -/
theorem stepKeepsInvariant : Obligations.StepKeepsInvariant :=
  fun _ _ => step_inv

/-! ### Reset, boot and the host (R220 to R222, R184) -/

section
variable {s : State}

/-- The release of reset gives the invariant where the environment left memory, `L` and the input stream sound (R38). -/
theorem releaseReset_inv (hmem : s.mem.wf = true) (hL : s.L.toNat ≤ 32768) (hpos : s.inputPos ≤ s.input.length) :
    (releaseReset s).Inv where
  memory := hmem
  storage := rfl
  depth := Nat.zero_le _
  live := fun _ hk => absurd hk (Nat.not_lt_zero _)
  length := hL
  pcRange := Nat.zero_le _
  pcBound := fun _ => Nat.zero_le _
  unfaulted := fun _ => ⟨rfl, rfl, rfl⟩
  faulted := nofun
  position := hpos

/-- Settles O57: the reset state is a release of reset with empty memory, `L = 0` and no input. -/
theorem resetSatisfiesInvariant : Obligations.ResetSatisfiesInvariant :=
  releaseReset_inv (s := State.reset) rfl (Nat.zero_le _) (Nat.zero_le _)

/-- A boot that succeeds gives the invariant, whatever the machine was before (R222). -/
theorem boot_inv {l : Launch} {t : State} (h : boot l s = (none, t)) : t.Inv := by
  rcases boot_cases l s with ⟨e, he⟩ | ⟨bytes, ws, -, -, hlen, he⟩ <;> cases h.symm.trans he
  have hL : (BitVec.ofNat 16 ws.length).toNat ≤ 32768 := by
    rw [BitVec.toNat_ofNat]
    exact (Nat.mod_le _ _).trans hlen
  exact releaseReset_inv (Memory.wf_writeWords ws [] 0 rfl (by omega)) hL (Nat.zero_le _)

/-- Delivering a byte lengthens the input stream, or does nothing once the end was reported (R181). -/
theorem deliverByte_cases (b : Byte) (s : State) :
    s.inputEnded = true ∧ deliverByte b s = s ∨
    s.inputEnded = false ∧ deliverByte b s = { s with input := s.input ++ [b] } := by
  unfold deliverByte
  cases s.inputEnded
  · exact .inr ⟨rfl, rfl⟩
  · exact .inl ⟨rfl, rfl⟩

/-- A longer input stream keeps the invariant (R181). -/
theorem deliverByte_inv (b : Byte) (h : s.Inv) : (deliverByte b s).Inv := by
  rcases deliverByte_cases b s with ⟨-, he⟩ | ⟨-, he⟩ <;> rw [he]
  · exact h
  · have hpos : s.inputPos ≤ (s.input ++ [b]).length := by
      rw [List.length_append]
      exact h.position.trans (Nat.le_add_right _ _)
    exact { h with position := hpos }

/-- Every reachable state satisfies the invariant (R39). -/
theorem Reachable.inv (h : Reachable s) : s.Inv := by
  induction h with
  | boot l s t hb => exact boot_inv hb
  | step s t _ hstep ih => exact step_inv ih hstep
  | deliverByte b s _ ih => exact deliverByte_inv b ih
  | endInput s _ ih => exact { ih with }
  | setSinkReady ready s _ ih => exact { ih with }
  | assertReset s _ ih => exact { ih with }
  | releaseReset s _ ih => exact releaseReset_inv ih.memory ih.length ih.position

end

/-- Settles O59: the invariant of every reachable state, and the widths of registers and stack entries. -/
theorem reachableStatesAreSafe : Obligations.ReachableStatesAreSafe := by
  intro s hr
  have h := hr.inv
  have hword : ∀ w : Word, w.toNat ≤ 32767 := fun w => Nat.le_of_lt_succ w.isLt
  exact ⟨h, fun hs => ⟨fun i => hword _, fun k _ => hword _, h.depth, h.pcBound hs, h.length⟩⟩

end Sys2Proof.Machine

/-! ## Proofs: out and in (`46_host_io.md`) -/

namespace Sys2Proof.Machine

/-! ### out (R182) -/

/-- What out does: its value slot, then the byte, once the sink accepts it, and the sequential update (R182). -/
theorem exec_out (a : Operand) (s : State) :
    exec (.out a) s = complete 19 s (resolve (val s a) fun v =>
      if s.sinkReady then .commit ((s.emitByte (v.setWidth 8)).advance 2) else .wait) := rfl

/-- The byte that out emits is its value modulo 256 (R182). -/
theorem lowByte_toNat (v : Word) : (v.setWidth 8 : Byte).toNat = v.toNat % 256 := BitVec.toNat_setWidth ..

/-- Settles O36, by the slot fault of pattern `v`, the two ends of the commit of out, and the wait on the sink. -/
theorem outRule : Obligations.OutRule := by
  refine ⟨slotsV_of_resolve (fun _ => rfl) exec_out, fun s a v ha hr hle => ?_, fun s a v ha hr hp hlt => ?_,
    fun s a v ha hr => exec_of_awaitsHost (.inl ⟨a, v, rfl, ha, hr⟩)⟩
  · exact ⟨_, lowByte_toNat v, exec_of_commits_advance (.out s a v ha hr) rfl hle⟩
  · exact ⟨_, lowByte_toNat v, overruns_of_commits_advance (.out s a v ha hr) rfl (by decide) hp hlt⟩

/-! ### in (R183) -/

/-- The destination of in is checked before the channel is asked (R183). -/
theorem inp_notRegister_faults {s : State} {a : Operand} (ha : NotRegister a) :
    FaultsWith (.inp a) s .invalidRegisterTarget := by
  rw [FaultsWith, exec, execIn, dst_of_not_register ha, resolve_error, complete_raise, Instr.opcode]

/-- With its destination resolved, in faults at the end of the stream (R183, R200). -/
theorem inp_ended_faults {s : State} {d : RegIdx} (h : s.inByte = .eof) :
    FaultsWith (.inp (.register d)) s .inputExhausted := by
  rw [FaultsWith, exec, execIn, dst_register, resolve_ok, h, complete_raise, Instr.opcode]

/-- A byte keeps its number when it is zero-extended to a Word (R183). -/
theorem zeroExtended_toNat (y : Byte) : (y.setWidth 15 : Word).toNat = y.toNat := by
  rw [BitVec.toNat_setWidth, Nat.mod_eq_of_lt (by omega)]

/-- Settles O37, by what is at the input port: the end of the stream, a byte with the two ends of the commit of in, or
neither. -/
theorem inRule : Obligations.InRule := by
  refine ⟨⟨fun _ => rfl, fun s a ha => inp_notRegister_faults ha⟩,
    fun s d hpos hend => inp_ended_faults (State.inByte_eq_eof.2 ⟨hpos, hend⟩), fun s d y hy hle => ?_,
    fun s d y hy hp hlt => ?_, fun s d hpos hend => exec_of_awaitsHost (.inr ⟨d, rfl, hpos, hend⟩)⟩
  all_goals have hcommit := Commits.inp s d y (State.inByte_eq_byte.2 hy)
  · exact ⟨_, zeroExtended_toNat y, exec_of_commits_advance hcommit rfl hle⟩
  · exact ⟨_, zeroExtended_toNat y, overruns_of_commits_advance hcommit rfl (by decide) hp hlt⟩

/-! ### The host's acts (R184) -/

/-- Settles O54: an act of the host writes the fields of its channel alone. -/
theorem hostLeavesCoreAlone : Obligations.HostLeavesCoreAlone := by
  refine fun s b r => ⟨?_, ⟨rfl, rfl, rfl, rfl, rfl, rfl, rfl, rfl, rfl, rfl⟩,
    ⟨rfl, rfl, rfl, rfl, rfl, rfl, rfl, rfl, rfl, rfl⟩⟩
  rcases deliverByte_cases b s with ⟨-, he⟩ | ⟨-, he⟩ <;> rw [he] <;>
    exact ⟨rfl, rfl, rfl, rfl, rfl, rfl, rfl, rfl, rfl, rfl⟩

/-- Before the end is reported a delivered byte is the last one offered (R181). -/
theorem deliverByte_of_not_ended {s : State} (hend : s.inputEnded = false) (y : Byte) :
    deliverByte y s = { s with input := s.input ++ [y] } := by
  rcases deliverByte_cases y s with ⟨hend', -⟩ | ⟨-, he⟩
  · cases hend'.symm.trans hend
  · exact he

/-- With every byte taken, a delivered byte is the one at the input port (R181). -/
theorem inByte_append_input {s : State} (hpos : s.inputPos = s.input.length) (y : Byte) :
    { s with input := s.input ++ [y] }.inByte = .byte y := by
  rw [State.inByte_eq_byte, hpos, List.getElem?_concat_length]

/-- A sequential update that stays within `L` does not wrap (R25, R26). -/
theorem advance_pc_toNat_of_le {s t : State} {n : Nat} (hpc : t.pc = s.pc) (hle : s.pc.toNat + n ≤ s.L.toNat) :
    (t.advance n).pc.toNat = s.pc.toNat + n := by
  rw [← hpc] at hle ⊢
  exact State.advance_pc_toNat t n (by omega)

/-- Settles O55: after the host's act the waiting instruction commits within `L`, or faults at the reported end. -/
theorem hostEndsAWait : Obligations.HostEndsAWait := by
  refine ⟨fun s d y hpos hend hle => ?_, fun s a v ha hr hle => ?_⟩
  · refine ⟨exec_of_awaitsHost (.inr ⟨d, rfl, hpos.ge, hend⟩),
      inp_ended_faults (State.inByte_eq_eof.2 ⟨hpos.ge, rfl⟩), ?_⟩
    have hcommit := Commits.inp _ d y (inByte_append_input hpos y)
    rw [deliverByte_of_not_ended hend]
    refine ⟨_, exec_of_commits_advance hcommit rfl hle, ?_, rfl, advance_pc_toNat_of_le rfl hle, rfl⟩
    rw [State.readReg_advance, State.readReg_writeReg, if_pos rfl]
  · have ha' : val (setSinkReady true s) a = .ok v := by
      rw [← ha]
      cases a <;> rfl
    have hcommit := Commits.out _ a v ha' rfl
    exact ⟨exec_of_awaitsHost (.inl ⟨a, v, rfl, ha, hr⟩), _, exec_of_commits_advance hcommit rfl hle, rfl,
      advance_pc_toNat_of_le rfl hle, rfl⟩

end Sys2Proof.Machine

/-! ## Proofs: a ret after a call (`43_control_transfer.md`) -/

namespace Sys2Proof.Machine

/-- An instruction that leaves the machine RUNNING has committed that state (R26, R85). -/
theorem commits_of_exec_running {i : Instr} {s t : State} (h : exec i s = .next t) (ht : t.status = .running) :
    Commits i s t := by
  rcases exec_cases h with ⟨-, rfl⟩ | ⟨hi, -⟩
  · cases ht
  · rcases exec_outcomes hi h with ⟨u, hu, ⟨-, rfl⟩ | ⟨-, rfl⟩⟩ | ⟨k, -, rfl⟩
    · exact hu
    · cases ht
    · cases ht

/-- Settles O49: the call's commit has the return address on top of a stack one deeper, which ret takes off and jumps
to. -/
theorem retAfterCallReturns : Obligations.RetAfterCallReturns := by
  intro s t a hpc hle hsp _ hcall ht
  cases commits_of_exec_running hcall ht with
  | call _ _ target _ _ =>
    have htop : ((s.pushEntry (returnAddress s)).jump target).top = returnAddress s := State.top_pushEntry _ hsp
    have hdepth : ((s.pushEntry (returnAddress s)).jump target).sp.toNat ≠ 0 :=
      (s.pushEntry_sp_toNat (returnAddress s) hsp).trans_ne (Nat.succ_ne_zero _)
    have hret := Commits.ret _ hdepth
    rw [htop] at hret
    refine ⟨_, exec_of_commits_jump hret ?_, ht, ?_, State.popEntry_pushEntry_sp s (returnAddress s), fun k hk => ?_⟩
    · rw [returnAddress_toNat hpc]
      exact hle
    · rw [State.jump_pc_toNat, returnAddress_toNat hpc]
    · exact StackStore.read_put_ne s.stk hk.ne _

end Sys2Proof.Machine

/-! ## Proofs: the image and the loader (`20_memory.md` R53, `60_exceptions.md` R206) -/

namespace Sys2Proof.Machine

/-- An image that has words has two bytes for each (R53). -/
theorem imageWords_length {bytes : List Byte} {ws : List Field} (h : imageWords bytes = some ws) :
    bytes.length = 2 * ws.length := by
  induction bytes using imageWords.induct generalizing ws with
  | case1 => cases h; rfl
  | case2 b => cases h
  | case3 lo hi rest ih =>
    obtain ⟨ws', hws, rfl⟩ := Option.map_eq_some_iff.1 h
    simp only [List.length_cons, ih hws]
    omega

/-- An image of an even number of bytes has words (R53). -/
theorem exists_imageWords {bytes : List Byte} (h : bytes.length % 2 = 0) : ∃ ws, imageWords bytes = some ws := by
  induction bytes using imageWords.induct with
  | case1 => exact ⟨[], rfl⟩
  | case2 b => cases h
  | case3 lo hi rest ih =>
    obtain ⟨ws, hws⟩ := ih ((Nat.add_mod_right _ 2).symm.trans h)
    exact ⟨(hi ++ lo : Field) :: ws, by rw [imageWords, hws]; rfl⟩

/-- Word `k` of an image is byte `2k` and byte `2k + 1`, low byte first (R53). -/
theorem imageWords_getD {bytes : List Byte} {ws : List Field} (h : imageWords bytes = some ws) (k : Nat)
    (hk : k < ws.length) : ws.getD k 0 = (bytes.getD (2 * k + 1) 0 ++ bytes.getD (2 * k) 0 : Field) := by
  induction bytes using imageWords.induct generalizing ws k with
  | case1 => cases h; cases hk
  | case2 b => cases h
  | case3 lo hi rest ih =>
    obtain ⟨ws', hws, rfl⟩ := Option.map_eq_some_iff.1 h
    cases k with
    | zero => rfl
    | succ k => exact ih hws k (Nat.lt_of_succ_lt_succ hk)

/-- Settles O51, by the pairs of bytes: how many there are, and what word each makes. -/
theorem imageBytesAreLittleEndian : Obligations.ImageBytesAreLittleEndian := by
  refine fun bytes => ⟨fun hodd => ?_, fun heven => ?_⟩
  · refine Option.eq_none_iff_forall_ne_some.2 fun ws hws => ?_
    have := imageWords_length hws
    omega
  · obtain ⟨ws, hws⟩ := exists_imageWords heven
    refine ⟨ws, hws, imageWords_length hws, fun k hk => ?_⟩
    rw [imageWords_getD hws k hk]
    exact ⟨extract_low_append _ _, extract_high_append _ _⟩

/-! ### No step in reset and in a terminal state (R32, R205, R206, R220) -/

/-- Where the CORE is stopped there is no step (R32, R205, R220). -/
theorem step_of_stopped {s : State} {r : Fault} (h : s.stopped = some r) : step s = .fault r := by
  simp only [step, h]

/-- While reset is asserted there is no step (R220). -/
theorem step_assertReset (s : State) : step (assertReset s) = .fault .coreInReset := step_of_stopped rfl

/-- Outside RUNNING there is no step (R32, R205). -/
theorem step_ne_next_of_status {s t : State} (h : s.status ≠ .running) : step s ≠ .next t := by
  intro hstep
  obtain ⟨⟨-, hs⟩, -⟩ := step_cases hstep
  exact h hs

/-- Settles O52: an image that the loader takes has words, twice as many bytes, and at most 32768 of them, so any other
leaves reset asserted. -/
theorem loadErrorKeepsCoreInReset : Obligations.LoadErrorKeepsCoreInReset := by
  intro l s himage
  rcases boot_cases l s with ⟨e, he⟩ | ⟨bytes, ws, hb, hws, hlen, -⟩
  · exact ⟨e, _, he, step_assertReset s⟩
  · have hbytes := imageWords_length hws
    rcases himage with hnone | ⟨bytes', hb', hbad⟩
    · cases hb.symm.trans hnone
    · cases hb.symm.trans hb'
      omega

/-- Settles O53: a step needs reset released and the status RUNNING, and the host's acts keep the status (O54). -/
theorem resetRule : Obligations.ResetRule := by
  refine ⟨step_assertReset, fun s => ⟨_, rfl, readReg_releaseReset s, rfl, rfl, rfl, rfl, rfl, rfl, rfl, rfl, rfl⟩,
    fun s t => step_ne_next_of_status, fun s b r => ?_⟩
  obtain ⟨⟨-, -, -, -, -, hst, -⟩, -⟩ := hostLeavesCoreAlone s b r
  exact ⟨hst, rfl, rfl, rfl⟩

end Sys2Proof.Machine

/-! ## Proofs: how an instruction and a step end (`10_state.md` R32, `60_exceptions.md` R205, R213) -/

namespace Sys2Proof.Machine

/-- Settles O12, by the wait of an instruction and what it does when it does not wait. -/
theorem instructionsStopOnlyToAwaitHost : Obligations.InstructionsStopOnlyToAwaitHost :=
  fun _ _ => ⟨exec_of_not_awaitsHost, exec_of_awaitsHost⟩

/-- Run in a RUNNING machine, an instruction leaves it HALTED exactly if it is halt, and FAULTED only with a cause
(R32, R33, R100). -/
theorem exec_status_of_running {i : Instr} {s t : State} (hs : s.status = .running) (h : exec i s = .next t) :
    (t.status = .halted ↔ i = .halt) ∧ (t.status = .faulted → t.cause ≠ .none) := by
  by_cases hi : i = .halt
  · subst hi
    cases h
    exact ⟨iff_of_true rfl rfl, nofun⟩
  · rcases exec_statusKeptOrFaulted h hi with ⟨hst, -⟩ | ⟨hst, hca, -⟩
    · rw [hst, hs]
      exact ⟨iff_of_false nofun hi, nofun⟩
    · rw [hst]
      exact ⟨iff_of_false nofun hi, fun _ => hca⟩

/-- A step leaves the machine HALTED exactly if it runs halt (R32, R100). -/
theorem step_halted_iff {s t : State} (h : step s = .next t) : t.status = .halted ↔ s.fetch = .instr .halt := by
  obtain ⟨⟨-, hs⟩, ⟨i, -, hf, he⟩ | ⟨k, op, hf, rfl⟩⟩ := step_cases h
  · rw [hf, Fetched.instr.injEq]
    exact (exec_status_of_running hs he).1
  · rw [hf]
    exact iff_of_false nofun nofun

/-- Settles O11: the codes by definition, no step by what stops the CORE, the ways into HALTED and FAULTED by what an
instruction does to the status. -/
theorem statusIsTerminal : Obligations.StatusIsTerminal := by
  refine ⟨rfl, rfl, rfl, fun s => ⟨rfl, rfl, rfl, rfl, rfl, rfl⟩, fun s hra hst => ?_, fun s hra hst => ?_,
    fun i s t => exec_status_of_running, fun s t _ => step_halted_iff⟩
  · exact step_of_stopped (by simp [State.stopped, hra, hst])
  · exact step_of_stopped (by simp [State.stopped, hra, hst])

end Sys2Proof.Machine

/-! ## Proofs: the four ways of a run (`70_reset_and_hazards.md` R228) -/

namespace Sys2Proof.Machine

/-! ### Runs that end -/

/-- The run from `s` ends in `t`: some steps lead there and no step leads on. -/
def RunEnds (s t : State) : Prop := (∃ n, RunsFor n s t) ∧ ∀ u, step t ≠ .next u

section
variable {s t u : State}

/-- What a run from `t` comes to, the run from `s` comes to one step later, if `s` steps to `t`. -/
theorem RunsFor.of_step {n : Nat} (h : step s = .next t) (hrun : RunsFor n t u) : RunsFor (n + 1) s u := ⟨t, h, hrun⟩

/-- A run is determined by its number of steps: where `n` steps lead to a state with no step, every run of `m` steps
has `m ≤ n`, and if it also ends, it ends there. -/
theorem RunsFor.le_of_ended {n m : Nat} (hn : RunsFor n s t) (hend : ∀ v, step t ≠ .next v) (hm : RunsFor m s u) :
    m ≤ n ∧ ((∀ v, step u ≠ .next v) → u = t) := by
  induction n generalizing s m with
  | zero =>
    cases hn
    cases m with
    | zero => exact ⟨le_rfl, fun _ => hm⟩
    | succ m =>
      obtain ⟨v, hv, -⟩ := hm
      exact absurd hv (hend v)
  | succ n ih =>
    obtain ⟨v, hv, hn⟩ := hn
    cases m with
    | zero =>
      cases hm
      exact ⟨Nat.zero_le _, fun hu => absurd hv (hu v)⟩
    | succ m =>
      obtain ⟨v', hv', hm⟩ := hm
      cases hv.symm.trans hv'
      exact (ih hn hm).imp_left Nat.succ_le_succ

/-- A run ends in at most one state. -/
theorem RunEnds.unique (ht : RunEnds s t) (hu : RunEnds s u) : t = u := by
  obtain ⟨⟨n, hn⟩, htend⟩ := ht
  obtain ⟨⟨m, hm⟩, huend⟩ := hu
  exact ((hn.le_of_ended htend hm).2 huend).symm

/-- A run that ends does not go on for ever. -/
theorem RunEnds.not_runLoops (h : RunEnds s t) : ¬RunLoops s := by
  intro hloop
  obtain ⟨⟨n, hn⟩, hend⟩ := h
  obtain ⟨u, hu, -⟩ := hloop (n + 1)
  exact absurd (hn.le_of_ended hend hu).1 (Nat.not_succ_le_self n)

/-! ### Each way that ends is an end in a state of its own -/

/-- A run that halts ends HALTED. -/
theorem RunHalts.ends (h : RunHalts s) : ∃ t, RunEnds s t ∧ t.status = .halted := by
  obtain ⟨n, t, hn, ht⟩ := h
  exact ⟨t, ⟨⟨n, hn⟩, fun u => step_ne_next_of_status (by simp [ht])⟩, ht⟩

/-- A run that faults ends FAULTED. -/
theorem RunFaults.ends (h : RunFaults s) : ∃ t, RunEnds s t ∧ t.status = .faulted := by
  obtain ⟨n, t, hn, ht, -⟩ := h
  exact ⟨t, ⟨⟨n, hn⟩, fun u => step_ne_next_of_status (by simp [ht])⟩, ht⟩

/-- A run that comes to wait on the host ends RUNNING (R213, U9). -/
theorem RunWaits.ends (h : RunWaits s) : ∃ t, RunEnds s t ∧ t.status = .running := by
  obtain ⟨n, t, i, hn, ht, -, -, hstep⟩ := h
  exact ⟨t, ⟨⟨n, hn⟩, fun u hu => by cases hstep.symm.trans hu⟩, ht⟩

/-- A run does not end in two states that differ in status. -/
theorem not_ends_with_two_statuses {a b : Status} (hab : a ≠ b) (ha : ∃ t, RunEnds s t ∧ t.status = a)
    (hb : ∃ t, RunEnds s t ∧ t.status = b) : False := by
  obtain ⟨t, ht, rfl⟩ := ha
  obtain ⟨u, hu, rfl⟩ := hb
  exact hab (congrArg State.status (ht.unique hu))

/-! ### Every run goes one of the ways -/

/-- The run from `s` halts, faults or comes to wait on the host. -/
def RunStops (s : State) : Prop := RunHalts s ∨ RunFaults s ∨ RunWaits s

/-- A run stops if it stops after its first step. -/
theorem RunStops.of_step (h : step s = .next t) (hstop : RunStops t) : RunStops s := by
  rcases hstop with ⟨n, u, hn, hu⟩ | ⟨n, u, hn, hu⟩ | ⟨n, u, i, hn, hu⟩
  · exact .inl ⟨n + 1, u, hn.of_step h, hu⟩
  · exact .inr (.inl ⟨n + 1, u, hn.of_step h, hu⟩)
  · exact .inr (.inr ⟨n + 1, u, i, hn.of_step h, hu⟩)

/-- A reachable state out of reset is RUNNING, or its run stops where it stands. -/
theorem running_or_runStops (hs : Reachable s) : s.status = .running ∨ RunStops s := by
  cases hst : s.status with
  | running => exact .inl rfl
  | halted => exact .inr (.inl ⟨0, s, rfl, hst⟩)
  | faulted => exact .inr (.inr (.inl ⟨0, s, rfl, hst, hs.inv.faulted hst⟩))

/-- No step asserts reset (R220). -/
theorem step_resetAsserted (h : step s = .next t) : t.resetAsserted = false := by
  obtain ⟨⟨hra, -⟩, ⟨i, -, -, he⟩ | ⟨k, op, -, rfl⟩⟩ := step_cases h
  · obtain ⟨-, hra', -⟩ := exec_sameLaunch he
    exact hra'.trans hra
  · exact hra

/-- For every number of steps, the run of a reachable state out of reset is RUNNING after them, or it stops. -/
theorem runsFor_running_or_runStops (hs : Reachable s) (hra : s.resetAsserted = false) (n : Nat) :
    (∃ t, RunsFor n s t ∧ t.status = .running) ∨ RunStops s := by
  induction n generalizing s with
  | zero => exact (running_or_runStops hs).imp_left fun hst => ⟨s, rfl, hst⟩
  | succ n ih =>
    rcases running_or_runStops hs with hst | hstop
    · rcases step_of_ready ⟨hra, hst⟩ with ⟨t, hstep⟩ | ⟨i, hf, hw, hstep⟩
      · rcases ih (hs.step s t hstep) (step_resetAsserted hstep) with ⟨u, hu, hrun⟩ | hstop
        · exact .inl ⟨u, hu.of_step hstep, hrun⟩
        · exact .inr (hstop.of_step hstep)
      · exact .inr (.inr (.inr ⟨0, s, i, rfl, hst, hf, hw, hstep⟩))
    · exact .inr hstop

/-- The run of a reachable state out of reset stops or goes on for ever, RUNNING. -/
theorem runStops_or_runLoops (hs : Reachable s) (hra : s.resetAsserted = false) : RunStops s ∨ RunLoops s :=
  or_iff_not_imp_left.2 fun hstop n => (runsFor_running_or_runStops hs hra n).resolve_right hstop

end

/-- Settles O60: a run that never stops is RUNNING after every number of steps, one that stops ends in one state, and
the status of that state says which way it went. -/
theorem runGoesExactlyOneOfFourWays : Obligations.RunGoesExactlyOneOfFourWays := by
  intro s hs hra
  refine ⟨?_, fun ⟨hh, hf⟩ => not_ends_with_two_statuses (by decide) hh.ends hf.ends, fun ⟨hh, hl⟩ => ?_,
    fun ⟨hh, hw⟩ => not_ends_with_two_statuses (by decide) hh.ends hw.ends, fun ⟨hf, hl⟩ => ?_,
    fun ⟨hf, hw⟩ => not_ends_with_two_statuses (by decide) hf.ends hw.ends, fun ⟨hl, hw⟩ => ?_⟩
  · rcases runStops_or_runLoops hs hra with (hh | hf | hw) | hl
    · exact .inl hh
    · exact .inr (.inl hf)
    · exact .inr (.inr (.inr hw))
    · exact .inr (.inr (.inl hl))
  · obtain ⟨t, ht, -⟩ := hh.ends
    exact ht.not_runLoops hl
  · obtain ⟨t, ht, -⟩ := hf.ends
    exact ht.not_runLoops hl
  · obtain ⟨t, ht, -⟩ := hw.ends
    exact ht.not_runLoops hl

end Sys2Proof.Machine
